-- ==== Sys2Proof/Word.lean ====
section
/-! DEFINITION. The widths of the block: a byte of data, an address, an operation word (spec 00_scope.md R6, R9; 30_encoding.md R53). -/

namespace Sys2Proof

/-- A Byte, the unit of transfer of every bus operation (00_scope.md R6, R9; 20_memory.md R38). -/
abbrev Byte := BitVec 8

/-- An Address of the one byte-addressed space (00_scope.md R6, R9; 20_memory.md R29). -/
abbrev Address := BitVec 16

/-- An operation word (30_encoding.md R53, R61). It is this spec's interface, not the chip's bus format (D2). -/
abbrev OpWord := BitVec 27

end Sys2Proof
end

