-- ==== Sys2Proof/Config.lean ====
section
/-! DEFINITION. What is configuration and no state of the block: the address map struct (spec 00_scope.md R6) and the run's open parameters (R7),
and the one thing the spec leaves free, the order of the agents' steps (42_console.md R82; 93_implementation_defined.md items 6 and 7).
This hardware's values of the map are `Machine.hardwareMap` in Sys2Proof/Machine/AddressDecoder.lean. -/

namespace Sys2Proof

/-- The AddressDecoder's configuration struct (00_scope.md R6). -/
structure AddrMap where
  /-- CON_READY_ADDR -/
  conReady : Address
  /-- CON_DATA_ADDR -/
  conData : Address
  /-- FB_BASE -/
  fbBase : Address
  /-- FB_W, columns -/
  fbW : Nat
  /-- FB_H, rows -/
  fbH : Nat
  deriving DecidableEq, Repr

/-- POLL_POLARITY, the client's busy-wait predicate (00_scope.md R7; 42_console.md R85). -/
inductive PollPolarity where
  /-- the client waits while the flag reads exactly 0x01 -/
  | eqOne
  /-- the client waits while the flag reads nonzero -/
  | neZero
  deriving DecidableEq, Repr

/-- The run's parameters that are no part of the address map (00_scope.md R7); the source gives none a value (D16, D17, D18).
They stand in State as plain data that no step writes, so a claim holds for every value of them (log 4). -/
structure Params where
  /-- POLL_POLARITY -/
  polarity : PollPolarity
  /-- CONSUMER_PRESENT -/
  consumerPresent : Bool
  /-- STEP_BUDGET; `none` is a run with no budget (43_host.md R90 (c)) -/
  stepBudget : Option Nat
  deriving DecidableEq, Repr

/-- A move an agent can make in a run: the client's next operation, or an operation of another agent (00_scope.md R5, R11). -/
inductive Move where
  | client
  | drain
  | frame
  | clear
  | reset
  deriving DecidableEq, Repr, Inhabited

/-- FREE VALUE (log 16): who makes the n-th move of a run in an order nothing fixes (42_console.md R82). It has no body, so a claim that
holds of it holds of every infinite order of moves. -/
opaque Config.freeMove : Nat → Move

end Sys2Proof
end

