-- ==== Sys2Proof/Machine/AddressDecoder.lean ====
section
/-! DEFINITION. The AddressDecoder: the legality of an address map (spec 00_scope.md R8), this hardware's map (R6), the target of an
address (20_memory.md R31 to R35), and the framebuffer's row-major mapping (10_state.md R21). -/

namespace Sys2Proof.Machine

open Sys2Proof

/-- The decoder's result type (20_memory.md R31). -/
inductive Target where
  | consoleData
  | consoleReady
  | framebuffer
  | ram
  deriving DecidableEq, Repr

/-- FB_END = FB_BASE + FB_W * FB_H, exclusive (00_scope.md R6). -/
def mapFbEnd (m : AddrMap) : Nat :=
  m.fbBase.toNat + m.fbW * m.fbH

/-- FB_BASE <= a < FB_END (20_memory.md R34). -/
def inFramebuffer (m : AddrMap) (a : Address) : Bool :=
  decide (m.fbBase.toNat ≤ a.toNat ∧ a.toNat < mapFbEnd m)

/-- The conditions under which a map is legal (00_scope.md R8). -/
def mapLegal (m : AddrMap) : Bool :=
  decide (m.conReady ≠ m.conData) && !inFramebuffer m m.conReady && !inFramebuffer m m.conData
    && decide (mapFbEnd m ≤ 0x10000)

/-- This hardware's map (00_scope.md R6, with the framebuffer's end as C1 resolves it). -/
def hardwareMap : AddrMap :=
  { conReady := 0x00FE#16, conData := 0x00FF#16, fbBase := 0x0200#16, fbW := 32, fbH := 32 }

/-- `resolve` over a given map, in the source's priority order (20_memory.md R34). -/
def resolveIn (m : AddrMap) (a : Address) : Target :=
  if a = m.conData then .consoleData
  else if a = m.conReady then .consoleReady
  else if inFramebuffer m a then .framebuffer
  else .ram

/-- The target of an address on this hardware (20_memory.md R34, R35). -/
def resolve (a : Address) : Target :=
  resolveIn hardwareMap a

/-- The cell index i = a - FB_BASE, 10 bits (10_state.md R21). -/
def cellIndex (a : Address) : BitVec 10 :=
  (a - hardwareMap.fbBase).setWidth 10

/-- row = i[9:5] (10_state.md R21). -/
def cellRow (a : Address) : BitVec 5 :=
  (cellIndex a).extractLsb' 5 5

/-- col = i[4:0] (10_state.md R21). -/
def cellCol (a : Address) : BitVec 5 :=
  (cellIndex a).extractLsb' 0 5

/-- addr(row, col) = FB_BASE + row*32 + col, the inverse mapping (10_state.md R21). -/
def cellAddr (row col : BitVec 5) : Address :=
  hardwareMap.fbBase + row.setWidth 16 * 32#16 + col.setWidth 16

end Sys2Proof.Machine
end

