-- ==== Sys2Proof/Syntax.lean ====
section
/-! DEFINITION. The operations, one constructor per row of spec/opcode_table.json (spec 30_encoding.md R54, R55).
RD.FB and WR.FB have two rows each (R55), so two constructors each; their 9-bit operand is the row's x bits. -/

namespace Sys2Proof

/-- An operation of the block (30_encoding.md R55). -/
inductive Instr where
  /-- RD.CDAT: read the console data register (40_bus_read.md R70) -/
  | rdCdat
  /-- RD.CRDY: read the console ready flag (40_bus_read.md R69) -/
  | rdCrdy
  /-- RD.FB, row 0000 001x xxxx xxxx: read a cell of 0x0200-0x03FF (40_bus_read.md R71) -/
  | rdFbLow (x : BitVec 9)
  /-- RD.FB, row 0000 010x xxxx xxxx: read a cell of 0x0400-0x05FF (40_bus_read.md R71) -/
  | rdFbHigh (x : BitVec 9)
  /-- RD.RAM: read a RAM cell (40_bus_read.md R68) -/
  | rdRam (a : Address)
  /-- WR.CDAT: write the console data register (41_bus_write.md R75) -/
  | wrCdat (v : Byte)
  /-- WR.CRDY: write the console ready flag (41_bus_write.md R74) -/
  | wrCrdy (v : Byte)
  /-- WR.FB, row 0000 001x xxxx xxxx: write a cell of 0x0200-0x03FF (41_bus_write.md R76) -/
  | wrFbLow (x : BitVec 9) (v : Byte)
  /-- WR.FB, row 0000 010x xxxx xxxx: write a cell of 0x0400-0x05FF (41_bus_write.md R76) -/
  | wrFbHigh (x : BitVec 9) (v : Byte)
  /-- WR.RAM: write a RAM cell (41_bus_write.md R73) -/
  | wrRam (a : Address) (v : Byte)
  /-- DRAIN: the consumer's transmit acknowledge (42_console.md R79) -/
  | drain
  /-- FRAME: the display sink's snapshot (43_host.md R87) -/
  | frame
  /-- CLEAR: the host's framebuffer clear (43_host.md R88) -/
  | clear
  /-- RESET: the block back to its launch state (70_reset_and_hazards.md R104) -/
  | reset
  deriving DecidableEq, Repr

end Sys2Proof
end

