-- ==== Sys2Proof/WellFormed.lean ====
section
/-! DEFINITION. Which terms of Instr some operation word spells: an address operand of RD.RAM or WR.RAM resolves to RAM
(spec 40_bus_read.md R68; 41_bus_write.md R73). Every other constructor's operands are legal at every value (30_encoding.md R55, R60). -/

namespace Sys2Proof

/-- The instruction is one that a word decodes to. -/
def Instr.wf : Instr → Bool
  | .rdCdat | .rdCrdy | .rdFbLow _ | .rdFbHigh _ => true
  | .rdRam a => decide (Machine.resolve a = .ram)
  | .wrCdat _ | .wrCrdy _ | .wrFbLow _ _ | .wrFbHigh _ _ => true
  | .wrRam a _ => decide (Machine.resolve a = .ram)
  | .drain | .frame | .clear | .reset => true

end Sys2Proof
end

