-- ==== Sys2Proof/Decode.lean ====
section
/-! DEFINITION. The operation word: its fields (spec 30_encoding.md R53), the reserved words (R60), the rows by mask and match
(R55, R56), the decoder, and the encoder. -/

namespace Sys2Proof

/-- OP, word[26:24] (30_encoding.md R53). -/
def opField (w : OpWord) : BitVec 3 :=
  w.extractLsb' 24 3

/-- ADDR, word[23:8] (30_encoding.md R53). -/
def addrField (w : OpWord) : Address :=
  w.extractLsb' 8 16

/-- DATA, word[7:0] (30_encoding.md R53). -/
def dataField (w : OpWord) : Byte :=
  w.extractLsb' 0 8

/-- The x bits of the two framebuffer patterns, ADDR[8:0] (30_encoding.md R55). -/
def fbField (w : OpWord) : BitVec 9 :=
  w.extractLsb' 8 9

/-- Why a word is refused (30_encoding.md R60). -/
inductive DecodeError where
  /-- OP is 110 or 111 (R60) -/
  | reservedOpcode
  /-- a DRAIN, FRAME, CLEAR or RESET word whose ADDR or DATA field is not zero (R60) -/
  | nonzeroOperand
  /-- no row matches; no word reaches it, since every word gets one verdict (R56) -/
  | noRow
  deriving DecidableEq, Repr

/-- The first check of a decoder: the reserved words (30_encoding.md R56, R60). -/
def reservedCheck (w : OpWord) : Option DecodeError :=
  if opField w = 0b110#3 ∨ opField w = 0b111#3 then some .reservedOpcode
  else if 0b010#3 ≤ opField w ∧ (addrField w ≠ 0#16 ∨ dataField w ≠ 0#8) then some .nonzeroOperand
  else none

/-- A row of the opcode table: a word selects it when `word & mask == match`. -/
structure Row where
  pattern : OpWord
  mask : OpWord
  build : OpWord → Instr

/-- The rows in ascending priority, RAM last (30_encoding.md R55, R56; spec/opcode_table.json). -/
def decodeRows : List Row :=
  [ ⟨0x000FF00#27, 0x7FFFF00#27, fun _ => .rdCdat⟩,
    ⟨0x100FF00#27, 0x7FFFF00#27, fun w => .wrCdat (dataField w)⟩,
    ⟨0x000FE00#27, 0x7FFFF00#27, fun _ => .rdCrdy⟩,
    ⟨0x100FE00#27, 0x7FFFF00#27, fun w => .wrCrdy (dataField w)⟩,
    ⟨0x0020000#27, 0x7FE0000#27, fun w => .rdFbLow (fbField w)⟩,
    ⟨0x0040000#27, 0x7FE0000#27, fun w => .rdFbHigh (fbField w)⟩,
    ⟨0x1020000#27, 0x7FE0000#27, fun w => .wrFbLow (fbField w) (dataField w)⟩,
    ⟨0x1040000#27, 0x7FE0000#27, fun w => .wrFbHigh (fbField w) (dataField w)⟩,
    ⟨0x0000000#27, 0x7000000#27, fun w => .rdRam (addrField w)⟩,
    ⟨0x1000000#27, 0x7000000#27, fun w => .wrRam (addrField w) (dataField w)⟩,
    ⟨0x2000000#27, 0x7FFFFFF#27, fun _ => .drain⟩,
    ⟨0x3000000#27, 0x7FFFFFF#27, fun _ => .frame⟩,
    ⟨0x4000000#27, 0x7FFFFFF#27, fun _ => .clear⟩,
    ⟨0x5000000#27, 0x7FFFFFF#27, fun _ => .reset⟩ ]

/-- The first row that matches the word (30_encoding.md R56). -/
def firstRow (w : OpWord) : List Row → Option Instr
  | [] => none
  | r :: rs => if w &&& r.mask = r.pattern then some (r.build w) else firstRow w rs

/-- The decoder: the reserved check, then the rows (30_encoding.md R56). -/
def decode (w : OpWord) : Except DecodeError Instr :=
  match reservedCheck w with
  | some e => .error e
  | none =>
    match firstRow w decodeRows with
    | some i => .ok i
    | none => .error .noRow

/-- {OP, ADDR, DATA} (30_encoding.md R53). -/
def opWord (op : BitVec 3) (a : Address) (d : Byte) : OpWord :=
  op ++ a ++ d

/-- ADDR of the low framebuffer pattern 0000 001x xxxx xxxx (30_encoding.md R55). -/
def fbLowAddr (x : BitVec 9) : Address :=
  0b0000001#7 ++ x

/-- ADDR of the high framebuffer pattern 0000 010x xxxx xxxx (30_encoding.md R55). -/
def fbHighAddr (x : BitVec 9) : Address :=
  0b0000010#7 ++ x

/-- OP of an operation (30_encoding.md R54). -/
def opcodeOf : Instr → BitVec 3
  | .rdCdat | .rdCrdy | .rdFbLow _ | .rdFbHigh _ | .rdRam _ => 0b000#3
  | .wrCdat _ | .wrCrdy _ | .wrFbLow _ _ | .wrFbHigh _ _ | .wrRam _ _ => 0b001#3
  | .drain => 0b010#3
  | .frame => 0b011#3
  | .clear => 0b100#3
  | .reset => 0b101#3

/-- ADDR of an operation; 0 where it has no address (30_encoding.md R55, R60). -/
def addressOf : Instr → Address
  | .rdCdat | .wrCdat _ => 0x00FF#16
  | .rdCrdy | .wrCrdy _ => 0x00FE#16
  | .rdFbLow x | .wrFbLow x _ => fbLowAddr x
  | .rdFbHigh x | .wrFbHigh x _ => fbHighAddr x
  | .rdRam a | .wrRam a _ => a
  | .drain | .frame | .clear | .reset => 0x0000#16

/-- DATA of an operation: the byte written; 0x00 in every other word (30_encoding.md R53, R59, R60). -/
def dataOf : Instr → Byte
  | .wrCdat v | .wrCrdy v | .wrFbLow _ v | .wrFbHigh _ v | .wrRam _ v => v
  | .rdCdat | .rdCrdy | .rdFbLow _ | .rdFbHigh _ | .rdRam _ => 0x00#8
  | .drain | .frame | .clear | .reset => 0x00#8

/-- The word of an operation (30_encoding.md R53, R55). -/
def encode (i : Instr) : OpWord :=
  opWord (opcodeOf i) (addressOf i) (dataOf i)

/-- The word `read(a)` stands for (30_encoding.md R62). -/
def readWord (a : Address) : OpWord :=
  opWord 0b000#3 a 0x00#8

/-- The word `write(a, v)` stands for (30_encoding.md R62). -/
def writeWord (a : Address) (v : Byte) : OpWord :=
  opWord 0b001#3 a v

/-- What the decoder reads from an instruction whose bits are `w` (a number of at most 27 bits is a word, R61). -/
def decodeTableWord (_nbits w : Nat) : Option Instr :=
  if w < 2 ^ 27 then
    match decode (BitVec.ofNat 27 w) with
    | .ok i => some i
    | .error _ => none
  else none

end Sys2Proof
end

