-- ==== Sys2Proof/Machine/State.lean ====
section
/-! DEFINITION. The machine's state: the block's tuple S = (ram, DATA, FLAG, fb, out) (spec 10_state.md R12), the ports of the latest
step (30_encoding.md R52), the host's counter (10_state.md R25), the run's parameters (00_scope.md R7), and the agents' steps still to
come (00_scope.md R5, R11); the ways a step stops; the state after reset (10_state.md R26). -/

namespace Sys2Proof.Machine

open Sys2Proof

/-- RAM contents: the cells that do not read 0x00, addresses strictly rising (`Memory.wf`). -/
abbrev Memory := List Host.Cell

/-- The 32 x 32 grid of byte cells, `g[row][col]` (10_state.md R20). -/
abbrev Grid := Vector (Vector Byte 32) 32

/-- The block's state tuple (10_state.md R12). -/
structure Block where
  /-- the RAM backing store (R15); the cells behind device addresses are left out, as R15 allows (log 2) -/
  ram : Memory
  /-- DATA, the console data register (R16) -/
  data : Byte
  /-- FLAG, the console ready flag (R17) -/
  flag : Byte
  /-- the framebuffer (R20) -/
  fb : Grid
  /-- the console's output sequence (R23) -/
  out : List Byte
  deriving DecidableEq, Repr

/-- What the latest step drove on the block's output ports (30_encoding.md R52, R58); `none` is nothing driven. -/
structure Ports where
  /-- RDATA, the read-data port -/
  rdata : Option Byte
  /-- the console output port -/
  console : Option Byte
  /-- the frame port -/
  frame : Option Grid
  deriving DecidableEq, Repr

/-- A name a client script gives to a result (30_encoding.md R62): any characters (its spelling: log 18). -/
abbrev Name := List Char

/-- What stands for an ADDR or a DATA of a client's operation: a value, or the name of an earlier result (30_encoding.md R62; log 13). -/
inductive ScriptArg (w : Nat) where
  | lit (v : BitVec w)
  | named (n : Name)
  deriving DecidableEq, Repr

/-- An operation of the client's program (20_memory.md R30; 30_encoding.md R62, R64). -/
inductive ScriptItem where
  /-- `read(a)`, or `name <- read(a)` -/
  | read (a : ScriptArg 16) (name : Option Name)
  /-- `write(a, v)` -/
  | write (a : ScriptArg 16) (v : ScriptArg 8)
  /-- the busy-wait `poll`: as many reads of the ready flag as it takes (30_encoding.md R64) -/
  | poll
  deriving DecidableEq, Repr

/-- A scheduled step of the run (00_scope.md R11; 42_console.md R82). -/
inductive Turn where
  /-- the client's next operation, or the next iteration of its busy-wait -/
  | client
  /-- an operation word presented at the operation port by the agent that issues its operation (30_encoding.md R52, R54) -/
  | port (w : OpWord)
  deriving DecidableEq, Repr

/-- Who moves when no turn is scheduled (42_console.md R82). -/
inductive Order where
  /-- SCHED_COOP, the cooperative schedule -/
  | coop
  /-- an order nothing fixes: any interleaving, for ever (log 16) -/
  | free
  deriving DecidableEq, Repr

/-- The agents that issue operation words (00_scope.md R5; 30_encoding.md R54). -/
inductive Agent where
  | client
  | consumer
  | sink
  | host
  deriving DecidableEq, Repr

/-- The whole machine: the block and what the agents hold. -/
structure State where
  /-- the block's state tuple (10_state.md R12) -/
  block : Block
  /-- the output ports as the latest step drove them (30_encoding.md R52) -/
  ports : Ports
  /-- the host's busy-wait counter (10_state.md R25) -/
  spin : Nat
  /-- the run's open parameters, which no step writes (00_scope.md R7) -/
  params : Params
  /-- the client's remaining operations, in program order (20_memory.md R44) -/
  script : List ScriptItem
  /-- what the client does over and over once `script` has run out; empty for a client that terminates (43_host.md R90) -/
  loop : List ScriptItem
  /-- the results the client has named, the latest first (30_encoding.md R62) -/
  names : List (Name × Byte)
  /-- the client is inside a busy-wait: it has made an iteration of the `poll` it stands at (10_state.md R25) -/
  waiting : Bool
  /-- the scheduled turns, oldest first -/
  turns : List Turn
  /-- who moves when no turn is scheduled (42_console.md R82) -/
  order : Order
  /-- how many moves of the free order have been taken: the model's own counter, which `Config.freeMove` is applied to (log 16) -/
  tick : Nat
  /-- the client stands at the yield of its busy-wait and the consumer has not yet had its turn (42_console.md R83) -/
  yielded : Bool
  /-- the host has aborted the client: the run has ended `Hang` (43_host.md R89) -/
  hung : Bool
  deriving DecidableEq, Repr

/-- Why no further step exists. The block itself raises no fault (60_exceptions.md R92): each name is an end of the run (43_host.md R90). -/
inductive Fault where
  /-- The run has ended `Done`: it is the client's turn and it has no further operation, now or later (R90 (a)). Raised by the client's turn
  (`clientTurn`). Safe: nothing is claimed of a step that does not exist. -/
  | runDone
  /-- The run has ended `Hang`: the host aborted the client in an earlier step (R89, R90 (b)). Raised by `step`. Safe: the abort
  itself is a next state that shows it. -/
  | runHang
  deriving DecidableEq, Repr

/-- What the model gives no meaning. -/
inductive Refusal where
  /-- An instruction whose meaning is not written. Raised by an arm of `exec` that is rejected by name; no arm is. Safe. -/
  | notModelled (mnemonic : String)
  /-- A reserved operation word: `refuse(ReservedOp)` (30_encoding.md R60). Raised by `present`. Safe: the spec refuses it. -/
  | reservedOp
  /-- A term RD.RAM or WR.RAM whose address is a device's, which no word decodes to (30_encoding.md R56; log 3). Raised by
  `execRdRam` and `execWrRam`. Safe. -/
  | notRam
  /-- An access wider than one byte: `refuse(MultiByteAccess)` (20_memory.md R39). Raised by `memRead` and `memWrite`. Safe: the
  spec refuses it. -/
  | multiByteAccess
  /-- An address map that breaks 00_scope.md R8. Raised by `launch`. Safe: the spec refuses it. -/
  | illegalConfiguration
  /-- A legal address map that is not this hardware's (00_scope.md R6; log 8). Raised by `launch`. Safe. -/
  | otherConfiguration
  /-- A DRAIN presented in a run with CONSUMER_PRESENT = false, where no DRAIN step ever occurs (42_console.md R81; log 9). Raised
  by `present`. Safe. -/
  | consumerAbsent
  /-- An operation of the client's program that uses a name no earlier result has; the transcriber lets no such script through
  (30_encoding.md R62; log 13). Raised by `clientTurn`. Safe. -/
  | unboundName
  deriving DecidableEq, Repr

/-- The framebuffer with every cell 0x00 (10_state.md R20). -/
def Grid.blank : Grid :=
  Vector.replicate 32 (Vector.replicate 32 0x00#8)

/-- The block's launch state (10_state.md R26). -/
def Block.launch : Block :=
  { ram := [], data := 0x00#8, flag := 0x00#8, fb := Grid.blank, out := [] }

/-- No port driven (30_encoding.md R58). -/
def Ports.idle : Ports :=
  { rdata := none, console := none, frame := none }

/-- DESIGN CHOICE (log 4): parameters the spec leaves OPEN (00_scope.md R7); no statement rests on these values. -/
def Params.chosen : Params :=
  { polarity := .neZero, consumerPresent := true, stepBudget := none }

/-- The machine at the start of a run (10_state.md R26; 70_reset_and_hazards.md R105), with no program loaded (log 6). -/
def State.reset : State :=
  { block := Block.launch, ports := Ports.idle, spin := 0, params := Params.chosen,
    script := [], loop := [], names := [], waiting := false, turns := [], order := .coop, tick := 0,
    yielded := false, hung := false }

end Sys2Proof.Machine
end

