-- ==== Sys2Proof/Machine/Ops.lean ====
section
/-! DEFINITION. The named operations over RAM, the framebuffer, the console registers and the ports. The block takes no exception
(spec 60_exceptions.md R92, R96, R97), so there is no operation that enters or leaves one. -/

namespace Sys2Proof.Machine

open Sys2Proof

/-- What a RAM cell that is not listed reads as: the reset contents (10_state.md R26; 20_memory.md R36). -/
def unlistedByte : Byte := 0x00#8

/-- The byte of a RAM cell (20_memory.md R36). -/
def ramRead : Memory → Nat → Byte
  | [], _ => unlistedByte
  | (k, w) :: m, a => if k = a then w else ramRead m a

/-- A cell put in front of a list, unless it holds what an unlisted cell reads as. -/
def consCell (a : Nat) (v : Byte) (m : Memory) : Memory :=
  if v = unlistedByte then m else (a, v) :: m

/-- `ram[a] <- v`, keeping the canonical form (41_bus_write.md R73). -/
def ramWrite : Memory → Nat → Byte → Memory
  | [], a, v => consCell a v []
  | (k, w) :: m, a, v =>
    if a < k then consCell a v ((k, w) :: m)
    else if a = k then consCell a v m
    else (k, w) :: ramWrite m a v

/-- Every address of the list is at least `lo`, addresses strictly rise, and no listed byte is what an unlisted cell reads as. -/
def Memory.wfFrom : Nat → Memory → Bool
  | _, [] => true
  | lo, (k, w) :: m => decide (lo ≤ k) && decide (w ≠ unlistedByte) && Memory.wfFrom (k + 1) m

/-- The canonical form of RAM contents. -/
def Memory.wf (m : Memory) : Bool :=
  Memory.wfFrom 0 m

/-- Every listed cell has an address that resolves to RAM (10_state.md R15; 20_memory.md R34). -/
def Memory.onlyRam (m : Memory) : Bool :=
  m.all fun c => decide (c.1 < 0x10000) && decide (resolve (BitVec.ofNat 16 c.1) = .ram)

/-- `fb[r][c]` (10_state.md R20). -/
def gridRead (g : Grid) (r c : BitVec 5) : Byte :=
  (g[r.toNat]'r.isLt)[c.toNat]'c.isLt

/-- `fb[r][c] <- v` (41_bus_write.md R76). -/
def gridWrite (g : Grid) (r c : BitVec 5) (v : Byte) : Grid :=
  g.set r.toNat ((g[r.toNat]'r.isLt).set c.toNat v c.isLt) r.isLt

/-- `cell(a)` (10_state.md R21). -/
def cellRead (g : Grid) (a : Address) : Byte :=
  gridRead g (cellRow a) (cellCol a)

/-- `cell(a) <- v` (10_state.md R21; 41_bus_write.md R76). -/
def cellWrite (g : Grid) (a : Address) (v : Byte) : Grid :=
  gridWrite g (cellRow a) (cellCol a) v

/-- The byte a bus read of `a` returns (10_state.md R28). -/
def peek (b : Block) (a : Address) : Byte :=
  match resolve a with
  | .consoleData => b.data
  | .consoleReady => b.flag
  | .framebuffer => cellRead b.fb a
  | .ram => ramRead b.ram a.toNat

/-- The state after a step that drives no port (30_encoding.md R58). -/
def State.quiet (s : State) : State :=
  { s with ports := Ports.idle }

/-- `RDATA <- v`: the read-data port of this step, and no other port (30_encoding.md R58; 40_bus_read.md R67). -/
def State.driveRdata (s : State) (v : Byte) : State :=
  { s with ports := { Ports.idle with rdata := some v } }

/-- The byte a DRAIN delivers on the console output port, and no other port (30_encoding.md R52). -/
def State.driveConsole (s : State) (v : Byte) : State :=
  { s with ports := { Ports.idle with console := some v } }

/-- The grid a FRAME returns on the frame port, and no other port (30_encoding.md R52; 43_host.md R87). -/
def State.driveFrame (s : State) (g : Grid) : State :=
  { s with ports := { Ports.idle with frame := some g } }

/-- `DATA <- v` (41_bus_write.md R75). -/
def State.setData (s : State) (v : Byte) : State :=
  { s with block := { s.block with data := v } }

/-- `FLAG <- v`, stored verbatim (10_state.md R17; 41_bus_write.md R74). -/
def State.setFlag (s : State) (v : Byte) : State :=
  { s with block := { s.block with flag := v } }

/-- `ram[a] <- v` (41_bus_write.md R73). -/
def State.setRam (s : State) (a : Address) (v : Byte) : State :=
  { s with block := { s.block with ram := ramWrite s.block.ram a.toNat v } }

/-- `cell(a) <- v` (41_bus_write.md R76). -/
def State.setCell (s : State) (a : Address) (v : Byte) : State :=
  { s with block := { s.block with fb := cellWrite s.block.fb a v } }

/-- The whole grid replaced (43_host.md R88). -/
def State.setGrid (s : State) (g : Grid) : State :=
  { s with block := { s.block with fb := g } }

/-- `out <- out ++ [v]` (42_console.md R79). -/
def State.emit (s : State) (v : Byte) : State :=
  { s with block := { s.block with out := s.block.out ++ [v] } }

end Sys2Proof.Machine
end

