-- ==== Sys2Proof/Machine/BusRead.lean ====
section
/-! DEFINITION. Bus reads (spec 40_bus_read.md): one meaning per row, and `MemRead(a, n)` over all targets (R67). -/

namespace Sys2Proof.Machine

open Sys2Proof

/-- RD.CDAT: `RDATA <- DATA` (40_bus_read.md R70). -/
def execRdCdat (s : State) : Host.Outcome State Fault Refusal :=
  .next (s.driveRdata s.block.data)

/-- RD.CRDY: `RDATA <- FLAG` (40_bus_read.md R69). -/
def execRdCrdy (s : State) : Host.Outcome State Fault Refusal :=
  .next (s.driveRdata s.block.flag)

/-- RD.FB, low pattern: `RDATA <- cell(a)` (40_bus_read.md R71). -/
def execRdFbLow (x : BitVec 9) (s : State) : Host.Outcome State Fault Refusal :=
  .next (s.driveRdata (cellRead s.block.fb (fbLowAddr x)))

/-- RD.FB, high pattern: `RDATA <- cell(a)` (40_bus_read.md R71). -/
def execRdFbHigh (x : BitVec 9) (s : State) : Host.Outcome State Fault Refusal :=
  .next (s.driveRdata (cellRead s.block.fb (fbHighAddr x)))

/-- RD.RAM: `RDATA <- ram[a]` for an address that resolves to RAM (40_bus_read.md R68). -/
def execRdRam (a : Address) (s : State) : Host.Outcome State Fault Refusal :=
  if resolve a = .ram then .next (s.driveRdata (ramRead s.block.ram a.toNat)) else .refused .notRam

/-- `MemRead(a, n)`: the Bus's read (20_memory.md R30, R39; 40_bus_read.md R67). -/
def memRead (a : Address) (n : Nat) (s : State) : Host.Outcome State Fault Refusal :=
  if n = 1 then .next (s.driveRdata (peek s.block a)) else .refused .multiByteAccess

end Sys2Proof.Machine
end

