-- ==== Sys2Proof/Machine/BusWrite.lean ====
section
/-! DEFINITION. Bus writes (spec 41_bus_write.md): one meaning per row, and `MemWrite(a, n, v)` over all targets (R72). -/

namespace Sys2Proof.Machine

open Sys2Proof

/-- WR.CDAT: `DATA <- v`, whatever FLAG is (41_bus_write.md R75; 70_reset_and_hazards.md R109). -/
def execWrCdat (v : Byte) (s : State) : Host.Outcome State Fault Refusal :=
  .next (s.setData v).quiet

/-- WR.CRDY: `FLAG <- v` (41_bus_write.md R74). -/
def execWrCrdy (v : Byte) (s : State) : Host.Outcome State Fault Refusal :=
  .next (s.setFlag v).quiet

/-- WR.FB, low pattern: `cell(a) <- v` (41_bus_write.md R76). -/
def execWrFbLow (x : BitVec 9) (v : Byte) (s : State) : Host.Outcome State Fault Refusal :=
  .next (s.setCell (fbLowAddr x) v).quiet

/-- WR.FB, high pattern: `cell(a) <- v` (41_bus_write.md R76). -/
def execWrFbHigh (x : BitVec 9) (v : Byte) (s : State) : Host.Outcome State Fault Refusal :=
  .next (s.setCell (fbHighAddr x) v).quiet

/-- WR.RAM: `ram[a] <- v` for an address that resolves to RAM (41_bus_write.md R73). -/
def execWrRam (a : Address) (v : Byte) (s : State) : Host.Outcome State Fault Refusal :=
  if resolve a = .ram then .next (s.setRam a v).quiet else .refused .notRam

/-- The state after the Bus has written one byte (41_bus_write.md R72). -/
def State.poke (s : State) (a : Address) (v : Byte) : State :=
  match resolve a with
  | .consoleData => s.setData v
  | .consoleReady => s.setFlag v
  | .framebuffer => s.setCell a v
  | .ram => s.setRam a v

/-- `MemWrite(a, n, v)`: the Bus's write (20_memory.md R30, R39; 41_bus_write.md R72). -/
def memWrite (a : Address) (n : Nat) (v : Byte) (s : State) : Host.Outcome State Fault Refusal :=
  if n = 1 then .next (s.poke a v).quiet else .refused .multiByteAccess

end Sys2Proof.Machine
end

