-- ==== Sys2Proof/Machine/Flags.lean ====
section
/-! DEFINITION. What the ready flag, the block's only flag, says: the console's two states (spec 10_state.md R18; 42_console.md R77),
and the client's two busy-wait predicates (42_console.md R85). -/

namespace Sys2Proof.Machine

open Sys2Proof

/-- The console's two states (42_console.md R77). -/
inductive ConsoleState where
  | idle
  | pending
  deriving DecidableEq, Repr

/-- Idle if FLAG == 0x00, Pending otherwise (10_state.md R18). -/
def consoleState (flag : Byte) : ConsoleState :=
  if flag = 0x00#8 then .idle else .pending

/-- The client goes on waiting after it has read `v` from the ready flag (30_encoding.md R64; 42_console.md R85). -/
def pollContinues : PollPolarity → Byte → Bool
  | .eqOne, v => decide (v = 0x01#8)
  | .neZero, v => decide (v ≠ 0x00#8)

end Sys2Proof.Machine
end

