-- ==== Sys2Proof/Machine/Console.lean ====
section
/-! DEFINITION. The consumer's transmit acknowledge (spec 42_console.md R79). -/

namespace Sys2Proof.Machine

open Sys2Proof

/-- DRAIN: capture DATA for output and clear FLAG when Pending; nothing when Idle; DATA is kept (42_console.md R79). -/
def execDrain (s : State) : Host.Outcome State Fault Refusal :=
  match consoleState s.block.flag with
  | .pending => .next (((s.emit s.block.data).setFlag 0x00#8).driveConsole s.block.data)
  | .idle => .next s.quiet

end Sys2Proof.Machine
end

