-- ==== Sys2Proof/Machine/HostOps.lean ====
section
/-! DEFINITION. The display sink's FRAME, the host's CLEAR and RESET, the host's step budget and abort, and the launch of a run
(spec 43_host.md R87 to R89; 70_reset_and_hazards.md R104, R105, R108). -/

namespace Sys2Proof.Machine

open Sys2Proof

/-- FRAME: the grid on the frame port, nothing written (43_host.md R87). -/
def execFrame (s : State) : Host.Outcome State Fault Refusal :=
  .next (s.driveFrame s.block.fb)

/-- CLEAR: every cell 0x00; RAM, console and `out` kept (43_host.md R88). -/
def execClear (s : State) : Host.Outcome State Fault Refusal :=
  .next (s.setGrid Grid.blank).quiet

/-- RESET: the whole block at its launch state, and the host's counter at 0 (70_reset_and_hazards.md R104). -/
def execReset (s : State) : Host.Outcome State Fault Refusal :=
  .next ({ s with block := Block.launch, spin := 0 } : State).quiet

/-- `spin` exceeds STEP_BUDGET (43_host.md R89). -/
def State.overBudget (s : State) : Bool :=
  match s.params.stepBudget with
  | none => false
  | some n => decide (n < s.spin)

/-- The host's abort of the client: the run ends `Hang`, the block is unchanged (43_host.md R89). -/
def State.abort (s : State) : State :=
  ({ s with hung := true } : State).quiet

/-- What a run is given from outside before its first step (00_scope.md R7; 43_host.md R90; log 6). -/
structure Load where
  params : Params
  /-- the client's operations, done once -/
  script : List ScriptItem
  /-- what the client then does over and over; empty for a client that terminates -/
  loop : List ScriptItem
  /-- the turns scheduled first -/
  turns : List Turn
  /-- who moves after them -/
  order : Order
  deriving DecidableEq, Repr

/-- The start of a run. The host checks the address map first: an illegal one does not start (00_scope.md R8;
70_reset_and_hazards.md R108), and this model runs this hardware's map only (log 8). A run that starts does so in the launch state
(R105), with its parameters, the client's program and the schedule given from outside (log 6). -/
def launch (m : AddrMap) (l : Load) : Host.Outcome State Fault Refusal :=
  if mapLegal m then
    if m = hardwareMap then
      .next { State.reset with params := l.params, script := l.script, loop := l.loop, turns := l.turns, order := l.order }
    else .refused .otherConfiguration
  else .refused .illegalConfiguration

end Sys2Proof.Machine
end

