-- ==== Sys2Proof/Machine/Dispatch.lean ====
section
/-! DEFINITION. One arm per constructor of Instr, each a call of that operation's meaning. -/

namespace Sys2Proof.Machine

open Sys2Proof

/-- The effect of one operation of the block. -/
def exec (i : Instr) (s : State) : Host.Outcome State Fault Refusal :=
  match i with
  | .rdCdat => Sys2Proof.Machine.execRdCdat s
  | .rdCrdy => Sys2Proof.Machine.execRdCrdy s
  | .rdFbLow x => Sys2Proof.Machine.execRdFbLow x s
  | .rdFbHigh x => Sys2Proof.Machine.execRdFbHigh x s
  | .rdRam a => Sys2Proof.Machine.execRdRam a s
  | .wrCdat v => Sys2Proof.Machine.execWrCdat v s
  | .wrCrdy v => Sys2Proof.Machine.execWrCrdy v s
  | .wrFbLow x v => Sys2Proof.Machine.execWrFbLow x v s
  | .wrFbHigh x v => Sys2Proof.Machine.execWrFbHigh x v s
  | .wrRam a v => Sys2Proof.Machine.execWrRam a v s
  | .drain => Sys2Proof.Machine.execDrain s
  | .frame => Sys2Proof.Machine.execFrame s
  | .clear => Sys2Proof.Machine.execClear s
  | .reset => Sys2Proof.Machine.execReset s

end Sys2Proof.Machine
end

