-- ==== Sys2Proof/Machine/Operands.lean ====
section
/-! DEFINITION. Facts about an operation that its operands and its place in the table give: who issues it (spec 30_encoding.md R54), and
the target its address reaches (20_memory.md R34). The address operand forms are `fbLowAddr`, `fbHighAddr` and `addressOf` of Decode. -/

namespace Sys2Proof.Machine

open Sys2Proof

/-- The agent that issues an operation (30_encoding.md R54; 60_exceptions.md R98, R101). -/
def issuerOf : Instr → Agent
  | .rdCdat | .rdCrdy | .rdFbLow _ | .rdFbHigh _ | .rdRam _ => .client
  | .wrCdat _ | .wrCrdy _ | .wrFbLow _ _ | .wrFbHigh _ _ | .wrRam _ _ => .client
  | .drain => .consumer
  | .frame => .sink
  | .clear | .reset => .host

/-- The target a bus operation reads or writes (30_encoding.md R55); none for the operations with no address. -/
def targetOf : Instr → Option Target
  | .rdCdat | .wrCdat _ => some .consoleData
  | .rdCrdy | .wrCrdy _ => some .consoleReady
  | .rdFbLow _ | .rdFbHigh _ | .wrFbLow _ _ | .wrFbHigh _ _ => some .framebuffer
  | .rdRam _ | .wrRam _ _ => some .ram
  | .drain | .frame | .clear | .reset => none

/-- The byte a name stands for (30_encoding.md R62). -/
def nameValue (n : Name) : List (Name × Byte) → Option Byte
  | [] => none
  | (k, v) :: ns => if k = n then some v else nameValue n ns

/-- A result named; a name given again stands for the later result (30_encoding.md R62). -/
def bindName (n : Name) (v : Byte) (ns : List (Name × Byte)) : List (Name × Byte) :=
  (n, v) :: ns.filter fun b => decide (b.1 ≠ n)

/-- What a read does to the client's names: its result gets the name it is given, if it is given one (30_encoding.md R62). -/
def bindResult (name : Option Name) (v : Byte) (ns : List (Name × Byte)) : List (Name × Byte) :=
  match name with
  | none => ns
  | some n => bindName n v ns

/-- The value of an operand of the client's program. A name in the place of an ADDR is its byte, zero-extended (log 13). -/
def ScriptArg.value {w : Nat} (ns : List (Name × Byte)) : ScriptArg w → Option (BitVec w)
  | .lit v => some v
  | .named n => (nameValue n ns).map (·.setWidth w)

end Sys2Proof.Machine
end

