-- ==== Sys2Proof/Machine/Sched.lean ====
section
/-! DEFINITION. How a step of the run reaches the block: an agent presents an operation word at the operation port (spec 30_encoding.md
R52), the client takes its turn (42_console.md R83, R84), and who moves when nothing is scheduled: SCHED_COOP, or a free order
(42_console.md R82). -/

namespace Sys2Proof.Machine

open Sys2Proof

/-- What the harness records when an agent's operation is issued. A client operation other than a poll read sets `spin` to 0 and ends
the client's busy-wait and its yield; the consumer's step ends the yield too (42_console.md R82, R83). -/
def noteIssued (ag : Agent) (s : State) : State :=
  match ag with
  | .client => { s with spin := 0, waiting := false, yielded := false }
  | .consumer => { s with yielded := false }
  | .sink => s
  | .host => s

/-- A word presented at the operation port: decoded, refused if it spells no operation (30_encoding.md R56, R60) or if it is a DRAIN
where there is no consumer (42_console.md R81), and otherwise carried out. -/
def present (w : OpWord) (s : State) : Host.Outcome State Fault Refusal :=
  match decode w with
  | .error _ => .refused .reservedOp
  | .ok i =>
    if issuerOf i = .consumer ∧ s.params.consumerPresent = false then .refused .consumerAbsent
    else exec i (noteIssued (issuerOf i) s)

/-- What the harness and the client hold after one iteration of a busy-wait whose read returned `v`: `spin` counts the iterations of
this busy-wait, the first of them as 1, the client stands at its yield, and it leaves the loop or stays (10_state.md R25; 30_encoding.md
R64; 42_console.md R83; 43_host.md R89). DESIGN CHOICE (log 17): the `v` of R64's `v <- read(0x00FE)` is the busy-wait's own; no name is
bound, and an earlier result named v keeps its name. -/
def afterPollRead (v : Byte) (rest : List ScriptItem) (s : State) : State :=
  { s with spin := (if s.waiting then s.spin else 0) + 1,
           waiting := pollContinues s.params.polarity v,
           yielded := true,
           script := if pollContinues s.params.polarity v then .poll :: rest else rest }

/-- One iteration of a busy-wait: a client read of the ready flag, then the yield (30_encoding.md R64; 42_console.md R83). -/
def pollIteration (rest : List ScriptItem) (s : State) : Host.Outcome State Fault Refusal :=
  match decode (readWord hardwareMap.conReady) with
  | .error _ => .refused .reservedOp
  | .ok i => exec i (afterPollRead (peek s.block hardwareMap.conReady) rest s)

/-- The client's operations from here on: when its script has run out, the loop from its start (43_host.md R90). -/
def State.upcoming (s : State) : List ScriptItem :=
  match s.script with
  | [] => s.loop
  | x :: xs => x :: xs

/-- The client's next step; with no operation left, now or later, the run is `Done` (43_host.md R90). The result a read is to give a
name is the byte its address views (10_state.md R28), which the read returns in the same step. -/
def clientTurn (s : State) : Host.Outcome State Fault Refusal :=
  match s.upcoming with
  | [] => .fault .runDone
  | .read a name :: rest =>
    match a.value s.names with
    | some a' => present (readWord a') { s with script := rest, names := bindResult name (peek s.block a') s.names }
    | none => .refused .unboundName
  | .write a v :: rest =>
    match a.value s.names, v.value s.names with
    | some a', some v' => present (writeWord a' v') { s with script := rest }
    | _, _ => .refused .unboundName
  | .poll :: rest => pollIteration rest s

/-- SCHED_COOP: the client runs until a yield, then the consumer takes one DRAIN step, then the client resumes (42_console.md R82). -/
def coopTurn (s : State) : Host.Outcome State Fault Refusal :=
  if s.yielded && s.params.consumerPresent then present (encode .drain) s else clientTurn s

/-- A move of the free order as a turn. With no consumer no DRAIN step occurs (42_console.md R81), and its place goes to the client. -/
def moveTurn (p : Params) : Move → Turn
  | .client => .client
  | .drain => if p.consumerPresent then .port (encode .drain) else .client
  | .frame => .port (encode .frame)
  | .clear => .port (encode .clear)
  | .reset => .port (encode .reset)

/-- A turn taken: the client's next operation, or a word presented (00_scope.md R11). -/
def runTurn (u : Turn) (s : State) : Host.Outcome State Fault Refusal :=
  match u with
  | .client => clientTurn s
  | .port w => present w s

/-- The next move of the free order (42_console.md R82; log 16). -/
def freeTurn (s : State) : Host.Outcome State Fault Refusal :=
  runTurn (moveTurn s.params (Config.freeMove s.tick)) { s with tick := s.tick + 1 }

/-- The next step of the run: the oldest scheduled turn, and when none is scheduled what the run's order says (00_scope.md R11;
42_console.md R82). -/
def takeTurn (s : State) : Host.Outcome State Fault Refusal :=
  match s.turns with
  | u :: ts => runTurn u { s with turns := ts }
  | [] =>
    match s.order with
    | .coop => coopTurn s
    | .free => freeTurn s

/-- One step. A run the host has ended takes none; the host aborts a client whose busy-wait is over budget before any other agent
moves (43_host.md R89; log 11); otherwise the run goes on. -/
def runStep (s : State) : Host.Outcome State Fault Refusal :=
  if s.hung then .fault .runHang
  else if s.overBudget then .next s.abort
  else takeTurn s

/-- A word put in front of the schedule, with what it takes for the very next step to present it: the run not ended, the host not
about to abort, and a consumer for a DRAIN (log 6). -/
def placeWord (w : OpWord) (s : State) : State :=
  { s with
    turns := .port w :: s.turns,
    hung := false,
    spin := if s.overBudget then 0 else s.spin,
    params := { s.params with consumerPresent := s.params.consumerPresent || decide (w = encode .drain) } }

end Sys2Proof.Machine
end

