-- ==== Sys2Proof/Machine/Step.lean ====
section
/-! DEFINITION. The machine's step, and how a word is placed for the next step to run. -/

namespace Sys2Proof.Machine

open Sys2Proof

/-- One step of the run: one operation of one agent (spec 00_scope.md R11). -/
def step (s : State) : Host.Outcome State Fault Refusal :=
  runStep s

/-- The state in which the next step presents the word `w` (log 6). A number of more than 27 bits is no operation word (30_encoding.md
R61): the port cannot carry it, and nothing is placed. -/
def State.withFetchWord (s : State) (_nbits w : Nat) : State :=
  if w < 2 ^ 27 then placeWord (BitVec.ofNat 27 w) s else s

end Sys2Proof.Machine
end

