-- ==== Sys2Proof/Machine/Runs.lean ====
section
/-! DEFINITION. Runs, finite and infinite, in any order of the agents' steps (spec 00_scope.md R11; 42_console.md R82), and the weak
fairness of the consumer (42_console.md R80). An order is given from outside, turn by turn, as a list or as a function of the step's
number; the machine's own step is the same one. -/

namespace Sys2Proof.Machine

open Sys2Proof

/-- The step of a run whose order gives `u` the next turn. -/
def stepBy (u : Turn) (s : State) : Host.Outcome State Fault Refusal :=
  step { s with turns := [u] }

/-- A finite run in the order of the list (00_scope.md R11; 42_console.md R82). -/
def runBy : List Turn → State → Host.Outcome State Fault Refusal
  | [], s => .next s
  | u :: us, s =>
    match stepBy u s with
    | .next t => runBy us t
    | .fault f => .fault f
    | .refused r => .refused r

/-- The infinite runs: `run n` is the state before the step that `order n` gives a turn to (00_scope.md R11; 42_console.md R82;
43_host.md R90 (c)). -/
def InfiniteRun (order : Nat → Turn) (run : Nat → State) : Prop :=
  ∀ n, stepBy (order n) (run n) = .next (run (n + 1))

/-- Weak fairness of the consumer: if the console is Pending from some point on, a DRAIN occurs after that point (42_console.md R80). -/
def WeaklyFair (order : Nat → Turn) (run : Nat → State) : Prop :=
  ∀ n, (∀ k, n ≤ k → (run k).block.flag ≠ 0x00#8) → ∃ k, n ≤ k ∧ order k = .port (encode .drain)

/-- A client that has an operation left gets a turn: the order does not leave it out for ever (42_console.md R82; log 7). -/
def ClientIsServed (order : Nat → Turn) (run : Nat → State) : Prop :=
  ∀ n, (run n).upcoming ≠ [] → ∃ k, n ≤ k ∧ order k = .client

end Sys2Proof.Machine
end

