-- ==== Sys2Proof/Machine/Script.lean ====
section
/-! DEFINITION. Operation scripts (spec 30_encoding.md R62 to R66): the lines, the text of a line, the transcriber that turns lines
into operation words or into the client's program, and the pseudo-operations. What the spec leaves open of scripts is the model's choice:
names (log 13), the text of a line (log 18) and which lines may stand in one script (log 19). -/

namespace Sys2Proof.Machine

open Sys2Proof

/-- An ADDR or a DATA as written: a number, not yet checked for range, or the name of an earlier result (30_encoding.md R62). -/
inductive ScriptNum where
  | num (n : Nat)
  | name (n : Name)
  deriving DecidableEq, Repr

/-- A line of a script (30_encoding.md R62 to R66). A row, a column and the bytes of `puts` are numbers, and
`pget` carries no name (DESIGN CHOICE, log 13): R62 names only the result of `read(ADDR)`. -/
inductive ScriptLine where
  | read (a : ScriptNum)
  /-- `name <- read(ADDR)`: the same read, its result named for the client's later lines (R62) -/
  | named (name : Name) (a : ScriptNum)
  | write (a v : ScriptNum)
  | drain
  | frame
  | clear
  | reset
  | putc (b : ScriptNum)
  | poll
  | pset (r c : Nat) (v : ScriptNum)
  | pget (r c : Nat)
  | puts (s : List Nat)
  deriving DecidableEq, Repr

/-- Why the transcriber refuses a line. -/
inductive ScriptError where
  /-- an ADDR of 0x10000 or more (R62) -/
  | addrRange
  /-- a DATA of 0x100 or more (R62) -/
  | dataRange
  /-- a row or column of 32 or more (R65) -/
  | cellRange
  /-- a line of another agent in the client's program (R54, R62; log 19) -/
  | notAClientLine
  /-- a busy-wait, which is no single operation (R63, R64, R66; log 19) -/
  | notOneOperation
  /-- a name no earlier line gives to a result (R62; log 13) -/
  | unboundName
  /-- a name in a line that is transcribed to one word by itself: its value is known only where the client's script runs (R62;
  log 19) -/
  | nameInWord
  /-- text that is no line (R62; log 18) -/
  | badLine
  deriving DecidableEq, Repr

/-- An ADDR below 0x10000, never truncated (R62). -/
def scriptAddr (a : Nat) : Except ScriptError Address :=
  if a < 0x10000 then .ok (BitVec.ofNat 16 a) else .error .addrRange

/-- A DATA below 0x100, never truncated (R62). -/
def scriptData (v : Nat) : Except ScriptError Byte :=
  if v < 0x100 then .ok (BitVec.ofNat 8 v) else .error .dataRange

/-- The address 0x0200 + 32*r + c of a cell, the row and column below 32, never wrapped (R65). -/
def scriptCell (r c : Nat) : Except ScriptError Address :=
  if r < 32 ∧ c < 32 then .ok (BitVec.ofNat 16 (0x0200 + 32 * r + c)) else .error .cellRange

/-- An operand of a client's line: a number by its range check, or a name some earlier line gives (R62). DESIGN CHOICE (log 13): a name
none gives is refused. -/
def scriptArg {w : Nat} (check : Nat → Except ScriptError (BitVec w)) (bound : List Name) :
    ScriptNum → Except ScriptError (ScriptArg w)
  | .num n => (check n).map .lit
  | .name n => if n ∈ bound then .ok (.named n) else .error .unboundName

/-- An operand of a line that is one word by itself (R62). DESIGN CHOICE (log 19): a name is refused there. -/
def scriptNum {w : Nat} (check : Nat → Except ScriptError (BitVec w)) : ScriptNum → Except ScriptError (BitVec w)
  | .num n => check n
  | .name _ => .error .nameInWord

/-- Two checks. DESIGN CHOICE (log 13): the first refusal stands. -/
def both {α β γ : Type} (f : α → β → γ) : Except ScriptError α → Except ScriptError β → Except ScriptError γ
  | .ok x, .ok y => .ok (f x y)
  | .error e, _ => .error e
  | .ok _, .error e => .error e

/-- The transmit request and busy-wait of `putc`: data first, then the flag value 0x01, then the busy-wait (R63). -/
def putcArg (b : ScriptArg 8) : List ScriptItem :=
  [.write (.lit 0x00FF#16) b, .write (.lit 0x00FE#16) (.lit 0x01#8), .poll]

/-- `putc b` (R63). -/
def putc (b : Byte) : List ScriptItem :=
  putcArg (.lit b)

/-- `puts s` is `putc` of each byte, in order (R66). -/
def puts : List Byte → List ScriptItem
  | [] => []
  | b :: s => putc b ++ puts s

/-- The bytes of `puts`, each checked for range (R62, R66). -/
def scriptBytes : List Nat → Except ScriptError (List Byte)
  | [] => .ok []
  | b :: s => both (· :: ·) (scriptData b) (scriptBytes s)

/-- A line as the one operation word it stands for by itself (R62, R65). DESIGN CHOICE (log 19): a busy-wait is refused. -/
def lineWord : ScriptLine → Except ScriptError OpWord
  | .read a => (scriptNum scriptAddr a).map readWord
  | .named _ a => (scriptNum scriptAddr a).map readWord
  | .write a v => both writeWord (scriptNum scriptAddr a) (scriptNum scriptData v)
  | .drain => .ok (encode .drain)
  | .frame => .ok (encode .frame)
  | .clear => .ok (encode .clear)
  | .reset => .ok (encode .reset)
  | .pset r c v => both writeWord (scriptCell r c) (scriptNum scriptData v)
  | .pget r c => (scriptCell r c).map readWord
  | .putc _ => .error .notOneOperation
  | .poll => .error .notOneOperation
  | .puts _ => .error .notOneOperation

/-- A line of the client's program as its items, after lines that have given the names `bound` (R62 to R66). DESIGN CHOICE (log 19): a
line of another agent is refused. -/
def lineItems (bound : List Name) : ScriptLine → Except ScriptError (List ScriptItem)
  | .read a => (scriptArg scriptAddr bound a).map fun a' => [.read a' none]
  | .named n a => (scriptArg scriptAddr bound a).map fun a' => [.read a' (some n)]
  | .write a v => both (fun a' v' => [.write a' v']) (scriptArg scriptAddr bound a) (scriptArg scriptData bound v)
  | .putc b => (scriptArg scriptData bound b).map putcArg
  | .poll => .ok [.poll]
  | .pset r c v => both (fun a' v' => [.write (.lit a') v']) (scriptCell r c) (scriptArg scriptData bound v)
  | .pget r c => (scriptCell r c).map fun a' => [.read (.lit a') none]
  | .puts s => (scriptBytes s).map puts
  | .drain => .error .notAClientLine
  | .frame => .error .notAClientLine
  | .clear => .error .notAClientLine
  | .reset => .error .notAClientLine

/-- The names a line leaves for the later ones (R62). DESIGN CHOICE (log 17): `poll`, and so `putc` and `puts`, leave none, although R64
writes the busy-wait's read as `v <- read(0x00FE)`; and (log 13) `pget` leaves none. -/
def lineNames (bound : List Name) : ScriptLine → List Name
  | .named n _ => n :: bound
  | .read _ | .write _ _ | .drain | .frame | .clear | .reset => bound
  | .putc _ | .poll | .pset _ _ _ | .pget _ _ | .puts _ => bound

/-- A client's script as its program (30_encoding.md R62 to R66). DESIGN CHOICE (log 19): busy-waits may stand in it, other agents' lines
not. -/
def scriptProgram (bound : List Name) : List ScriptLine → Except ScriptError (List ScriptItem)
  | [] => .ok []
  | l :: ls => both (· ++ ·) (lineItems bound l) (scriptProgram (lineNames bound l) ls)

/-- A line of a script of all the agents: what it adds to the client's program, and the turns that run it (R54, R62). A busy-wait takes
as many turns as the order of the run gives it, so it has no turns of its own, and the model refuses it here (DESIGN CHOICE, log 19): the
spec neither forbids a busy-wait among other agents' lines nor orders such a script's steps. -/
def lineTurns (bound : List Name) : ScriptLine → Except ScriptError (List ScriptItem × List Turn)
  | .drain => .ok ([], [.port (encode .drain)])
  | .frame => .ok ([], [.port (encode .frame)])
  | .clear => .ok ([], [.port (encode .clear)])
  | .reset => .ok ([], [.port (encode .reset)])
  | .putc _ => .error .notOneOperation
  | .poll => .error .notOneOperation
  | .puts _ => .error .notOneOperation
  | .read a => (lineItems bound (.read a)).map fun is => (is, [.client])
  | .named n a => (lineItems bound (.named n a)).map fun is => (is, [.client])
  | .write a v => (lineItems bound (.write a v)).map fun is => (is, [.client])
  | .pset r c v => (lineItems bound (.pset r c v)).map fun is => (is, [.client])
  | .pget r c => (lineItems bound (.pget r c)).map fun is => (is, [.client])

/-- A script of the agents' operations, one a line, as the client's program and the turns that run the lines in order (00_scope.md R11;
30_encoding.md R62). DESIGN CHOICE (log 19): other agents' lines may stand in it, busy-waits not. -/
def scriptTurns (bound : List Name) : List ScriptLine → Except ScriptError (List ScriptItem × List Turn)
  | [] => .ok ([], [])
  | l :: ls => both (fun x y => (x.1 ++ y.1, x.2 ++ y.2)) (lineTurns bound l) (scriptTurns (lineNames bound l) ls)

/-- A piece of a line's text. -/
inductive Token where
  | word (cs : List Char)
  | num (n : Nat)
  | mark (c : Char)
  deriving DecidableEq, Repr

/-- The value of a digit in base 16; decimal digits are the ones below 10. -/
def digitValue (c : Char) : Option Nat :=
  if '0'.toNat ≤ c.toNat ∧ c.toNat ≤ '9'.toNat then some (c.toNat - '0'.toNat)
  else if 'a'.toNat ≤ c.toNat ∧ c.toNat ≤ 'f'.toNat then some (c.toNat - 'a'.toNat + 10)
  else if 'A'.toNat ≤ c.toNat ∧ c.toNat ≤ 'F'.toNat then some (c.toNat - 'A'.toNat + 10)
  else none

/-- Digits of a base after the value read so far. -/
def digitsValue (base : Nat) : Nat → List Char → Option Nat
  | acc, [] => some acc
  | acc, c :: cs =>
    match digitValue c with
    | some d => if d < base then digitsValue base (base * acc + d) cs else none
    | none => none

/-- A run of characters with no space and no mark: a hexadecimal number `0x..`, a decimal number, or a word (R62). DESIGN CHOICE (log 18):
a run that starts with a decimal digit is a number or refused, and any other is a word, which may be a name, the words of the forms
included. -/
def wordToken : List Char → Option Token
  | [] => none
  | '0' :: 'x' :: c :: cs => (digitsValue 16 0 (c :: cs)).map .num
  | c :: cs =>
    match digitValue c with
    | some d =>
      if d < 10 then (digitsValue 10 0 (c :: cs)).map .num else some (.word (c :: cs))
    | none => some (.word (c :: cs))

/-- The marks a line's text uses (R62); no name holds one (DESIGN CHOICE, log 18). -/
def isMark (c : Char) : Bool :=
  c == '(' || c == ')' || c == ',' || c == '<' || c == '-'

/-- The pieces of a line, the characters read so far given; `;` starts a comment (R62). DESIGN CHOICE (log 18): a space separates and a tab
does not, and spaces may stand between any two pieces. -/
def tokensFrom (acc : List Char) : List Char → Option (List Token)
  | [] => if acc = [] then some [] else (wordToken acc).map fun t => [t]
  | c :: cs =>
    if c = ';' then
      if acc = [] then some [] else (wordToken acc).map fun t => [t]
    else if c = ' ' ∨ isMark c then
      match tokensFrom [] cs with
      | none => none
      | some ts =>
        let ts' := if c = ' ' then ts else .mark c :: ts
        if acc = [] then some ts' else (wordToken acc).map fun t => t :: ts'
    else tokensFrom (acc ++ [c]) cs

/-- A number or a name in the place of an operand (R62; any word is a name there, log 18). -/
def operandOf : Token → Except ScriptError ScriptNum
  | .num n => .ok (.num n)
  | .word n => .ok (.name n)
  | .mark _ => .error .badLine

/-- The forms of a line's text (R62, and R63 to R65 for the pseudo-operations written with numbers). DESIGN CHOICE (log 13):
`name <- pget r, c` is no form; (log 18) a word's place says whether it is a form's word or a name. -/
def lineOfTokens : List Token → Except ScriptError ScriptLine
  | [.word ['r', 'e', 'a', 'd'], .mark '(', a, .mark ')'] => (operandOf a).map .read
  | [.word n, .mark '<', .mark '-', .word ['r', 'e', 'a', 'd'], .mark '(', a, .mark ')'] => (operandOf a).map (.named n)
  | [.word ['w', 'r', 'i', 't', 'e'], .mark '(', a, .mark ',', v, .mark ')'] => both .write (operandOf a) (operandOf v)
  | [.word ['d', 'r', 'a', 'i', 'n']] => .ok .drain
  | [.word ['f', 'r', 'a', 'm', 'e'], .mark '(', .mark ')'] => .ok .frame
  | [.word ['c', 'l', 'e', 'a', 'r'], .mark '(', .mark ')'] => .ok .clear
  | [.word ['r', 'e', 's', 'e', 't']] => .ok .reset
  | [.word ['p', 'u', 't', 'c'], b] => (operandOf b).map .putc
  | [.word ['p', 'o', 'l', 'l']] => .ok .poll
  | [.word ['p', 's', 'e', 't'], .num r, .mark ',', .num c, .mark ',', v] => (operandOf v).map (.pset r c)
  | [.word ['p', 'g', 'e', 't'], .num r, .mark ',', .num c] => .ok (.pget r c)
  | _ => .error .badLine

/-- The line a text stands for; `none` for a comment (R62) and, by DESIGN CHOICE (log 18), for a blank line. -/
def parseLine (cs : List Char) : Except ScriptError (Option ScriptLine) :=
  match tokensFrom [] cs with
  | none => .error .badLine
  | some [] => .ok none
  | some (t :: ts) => (lineOfTokens (t :: ts)).map some

end Sys2Proof.Machine
end

