-- ==== Sys2Proof/Safety.lean ====
section
/-! DEFINITION. The terms in which claims are stated: the invariant of the state, the operation a step carries out, runs of operations
and of steps, and the console's transition table (spec 42_console.md R78) written apart from the meanings. -/

namespace Sys2Proof.Machine

open Sys2Proof

/-- RAM is in its canonical form and lists no device's address (spec 10_state.md R15). -/
def Block.wf (b : Block) : Bool :=
  b.ram.wf && b.ram.onlyRam

/-- The invariant every step keeps: RAM canonical, a client inside a busy-wait stands at a `poll` (10_state.md R25), and no name stands
for two results (30_encoding.md R62). -/
def State.wf (s : State) : Bool :=
  s.block.wf && (!s.waiting || decide (s.script.head? = some .poll)) && decide (s.names.map Prod.fst).Nodup

/-- The operation a presented word carries out, if it carries one out. -/
def wordOp (w : OpWord) (s : State) : Option Instr :=
  match decode w with
  | .error _ => none
  | .ok i => if issuerOf i = .consumer ∧ s.params.consumerPresent = false then none else some i

/-- The operation the client's next turn carries out. -/
def clientOp (s : State) : Option Instr :=
  match s.upcoming with
  | [] => none
  | .read a _ :: _ => (a.value s.names).bind fun a' => wordOp (readWord a') s
  | .write a v :: _ => (a.value s.names).bind fun a' => (v.value s.names).bind fun v' => wordOp (writeWord a' v') s
  | .poll :: _ => wordOp (readWord hardwareMap.conReady) s

/-- The operation a turn carries out. -/
def turnOp (u : Turn) (s : State) : Option Instr :=
  match u with
  | .client => clientOp s
  | .port w => wordOp w s

/-- The operation the next step carries out; none when the run has ended, when the step is the host's abort, or when it stops. -/
def nextOp (s : State) : Option Instr :=
  if s.hung || s.overBudget then none
  else
    match s.turns, s.order with
    | u :: _, _ => turnOp u s
    | [], .coop => if s.yielded && s.params.consumerPresent then some .drain else clientOp s
    | [], .free => turnOp (moveTurn s.params (Config.freeMove s.tick)) s

/-- An item of the client's program uses only names of the list (30_encoding.md R62). -/
def ScriptItem.usesOnly (ns : List Name) : ScriptItem → Bool
  | .read (.lit _) _ | .write (.lit _) (.lit _) | .poll => true
  | .read (.named n) _ | .write (.named n) (.lit _) | .write (.lit _) (.named n) => decide (n ∈ ns)
  | .write (.named n) (.named m) => decide (n ∈ ns) && decide (m ∈ ns)

/-- Steps, one after another, stopping at the first that is no next state. -/
def runSteps : Nat → State → Host.Outcome State Fault Refusal
  | 0, s => .next s
  | k + 1, s =>
    match step s with
    | .next t => runSteps k t
    | .fault f => .fault f
    | .refused r => .refused r

/-- Operations of the block, one after another (spec 00_scope.md R11). -/
def execAll : List Instr → State → Host.Outcome State Fault Refusal
  | [], s => .next s
  | i :: is, s =>
    match exec i s with
    | .next t => execAll is t
    | .fault f => .fault f
    | .refused r => .refused r

/-- The byte an operation writes at an address, if it writes one there: a bus write, the consumer's clear of FLAG, a host clear of the
framebuffer, a reset (spec 20_memory.md R45). -/
def writesAt (i : Instr) (a : Address) : Option Byte :=
  match i with
  | .rdCdat | .rdCrdy | .rdFbLow _ | .rdFbHigh _ | .rdRam _ | .frame => none
  | .wrCdat v => if a = 0x00FF#16 then some v else none
  | .wrCrdy v => if a = 0x00FE#16 then some v else none
  | .wrFbLow x v => if a = fbLowAddr x then some v else none
  | .wrFbHigh x v => if a = fbHighAddr x then some v else none
  | .wrRam b v => if a = b then some v else none
  | .drain => if a = 0x00FE#16 then some 0x00#8 else none
  | .clear => if 0x0200 ≤ a.toNat ∧ a.toNat < 0x0600 then some 0x00#8 else none
  | .reset => some 0x00#8

/-- The byte the last of the operations that wrote an address left there, `old` if none did (spec 20_memory.md R45). -/
def lastWritten : List Instr → Address → Byte → Byte
  | [], _, old => old
  | i :: is, a, old => lastWritten is a ((writesAt i a).getD old)

/-- FLAG, DATA and `out` after an operation, as the console's transition table says (spec 42_console.md R78). -/
def consoleAfter (i : Instr) (flag data : Byte) (out : List Byte) : Byte × Byte × List Byte :=
  match i with
  | .wrCrdy v => (v, data, out)
  | .wrCdat b => (flag, b, out)
  | .drain =>
    match consoleState flag with
    | .pending => (0x00#8, data, out ++ [data])
    | .idle => (0x00#8, data, out)
  | .reset => (0x00#8, 0x00#8, [])
  | .rdCrdy | .rdCdat => (flag, data, out)
  | .rdRam _ | .wrRam _ _ => (flag, data, out)
  | .rdFbLow _ | .rdFbHigh _ | .wrFbLow _ _ | .wrFbHigh _ _ => (flag, data, out)
  | .frame | .clear => (flag, data, out)

/-- A turn that leaves the console's registers to the client's own program and the consumer: the client's, a DRAIN, a FRAME, a CLEAR
(the premises of spec 42_console.md R86). -/
def Turn.keepsProtocol : Turn → Bool
  | .client => true
  | .port w => decide (w = encode .drain) || decide (w = encode .frame) || decide (w = encode .clear)

end Sys2Proof.Machine
end

