-- ==== Sys2Proof/Certificates/Slice0/Obligations.lean ====
section
/-! DEFINITION. The statements for the provers, each from the spec's numbered rules; OBLIGATIONS.json lists them. -/

open Sys2Proof Sys2Proof.Machine

/-! Encoding and decoding (30_encoding.md) -/

/-- Decoding the word of a well-formed operation gives the operation back, every operand at every value (R53, R55, R57). -/
def Obligations.DecodeOfEncodeIsTheOperation : Prop :=
  ∀ i : Instr, i.wf = true → decode (encode i) = .ok i

/-- A decoded operation is well-formed and carries the word's OP, ADDR and, unless it is a READ, DATA (R53, R57, R59). -/
def Obligations.DecodedOperationCarriesTheFields : Prop :=
  ∀ (w : OpWord) (i : Instr), decode w = .ok i →
    i.wf = true ∧ opcodeOf i = opField w ∧ addressOf i = addrField w
      ∧ dataOf i = if opField w = 0b000#3 then 0x00#8 else dataField w

/-- The fields of a word by number: word = OP*0x1000000 + ADDR*0x100 + DATA, and each field is its bits of the word (R53). -/
def Obligations.WordFieldsByNumber : Prop :=
  (∀ (op : BitVec 3) (a : Address) (d : Byte),
      (opWord op a d).toNat = op.toNat * 0x1000000 + a.toNat * 0x100 + d.toNat)
    ∧ ∀ w : OpWord, (opField w).toNat = w.toNat / 0x1000000
      ∧ (addrField w).toNat = w.toNat / 0x100 % 0x10000 ∧ (dataField w).toNat = w.toNat % 0x100

/-- The words refused are exactly the reserved ones, and presenting one is refused by name (R60). -/
def Obligations.ExactlyTheReservedWordsAreRefused : Prop :=
  ∀ w : OpWord,
    ((∃ e, decode w = .error e) ↔
      opField w = 0b110#3 ∨ opField w = 0b111#3
        ∨ ((opField w = 0b010#3 ∨ opField w = 0b011#3 ∨ opField w = 0b100#3 ∨ opField w = 0b101#3)
            ∧ (addrField w ≠ 0#16 ∨ dataField w ≠ 0#8)))
    ∧ ((∃ e, decode w = .error e) → ∀ s : State, present w s = .refused .reservedOp)

/-- A READ or WRITE word always decodes, to an operation on the target its address resolves to (R55, R56; 20_memory.md R34). -/
def Obligations.BusWordsFollowTheAddressDecoder : Prop :=
  ∀ w : OpWord, opField w = 0b000#3 ∨ opField w = 0b001#3 →
    ∃ i, decode w = .ok i ∧ targetOf i = some (resolve (addrField w))

/-- A READ word means the same whatever its DATA field holds, and encoders write 0x00 there (R59). -/
def Obligations.ReadIgnoresItsDataField : Prop :=
  (∀ (a : Address) (d : Byte) (s : State), present (opWord 0b000#3 a d) s = present (opWord 0b000#3 a 0x00#8) s)
    ∧ ∀ i : Instr, opcodeOf i = 0b000#3 → dataField (encode i) = 0x00#8

/-- Words of every family written out in hexadecimal decode to the operations they stand for (R55; 95_test_vectors.md V-E). -/
def Obligations.ListedWordsDecode : Prop :=
  decode 0x000FE00#27 = .ok .rdCrdy ∧ decode 0x000FF00#27 = .ok .rdCdat ∧ decode 0x003FF00#27 = .ok (.rdFbLow 0x1FF#9)
    ∧ decode 0x0040000#27 = .ok (.rdFbHigh 0x000#9) ∧ decode 0x001FF00#27 = .ok (.rdRam 0x01FF#16)
    ∧ decode 0x100FE01#27 = .ok (.wrCrdy 0x01#8) ∧ decode 0x100FF48#27 = .ok (.wrCdat 0x48#8)
    ∧ decode 0x102A7E0#27 = .ok (.wrFbLow 0x0A7#9 0xE0#8) ∧ decode 0x105FF01#27 = .ok (.wrFbHigh 0x1FF#9 0x01#8)
    ∧ decode 0x1060001#27 = .ok (.wrRam 0x0600#16 0x01#8) ∧ decode 0x2000000#27 = .ok .drain
    ∧ decode 0x3000000#27 = .ok .frame ∧ decode 0x4000000#27 = .ok .clear ∧ decode 0x5000000#27 = .ok .reset

/-! The address map (00_scope.md, 10_state.md, 20_memory.md) -/

/-- The regions of the address map, as ranges of the whole 16-bit address: no device is mirrored (20_memory.md R32, R33). -/
def Obligations.AddressMapRegions : Prop :=
  ∀ a : Address,
    (resolve a = .consoleReady ↔ a.toNat = 0x00FE) ∧ (resolve a = .consoleData ↔ a.toNat = 0x00FF)
      ∧ (resolve a = .framebuffer ↔ 0x0200 ≤ a.toNat ∧ a.toNat ≤ 0x05FF)
      ∧ (resolve a = .ram ↔ a.toNat ≤ 0x00FD ∨ (0x0100 ≤ a.toNat ∧ a.toNat ≤ 0x01FF) ∨ 0x0600 ≤ a.toNat)

/-- A map is legal under exactly R8's conditions, an illegal one is refused, and this hardware's is legal; and in a legal map no two of
the decoder's conditions hold at once, so their order does not matter (00_scope.md R8; 20_memory.md R34). -/
def Obligations.OnlyLegalMapsStart : Prop :=
  (∀ m : AddrMap, mapLegal m = true ↔
      m.conReady ≠ m.conData
        ∧ ¬(m.fbBase.toNat ≤ m.conReady.toNat ∧ m.conReady.toNat < m.fbBase.toNat + m.fbW * m.fbH)
        ∧ ¬(m.fbBase.toNat ≤ m.conData.toNat ∧ m.conData.toNat < m.fbBase.toNat + m.fbW * m.fbH)
        ∧ m.fbBase.toNat + m.fbW * m.fbH ≤ 0x10000)
    ∧ (∀ (m : AddrMap) (l : Load), mapLegal m = false → launch m l = .refused .illegalConfiguration)
    ∧ mapLegal hardwareMap = true
    ∧ ∀ (m : AddrMap) (a : Address), mapLegal m = true →
        (resolveIn m a = .consoleData ↔ a = m.conData) ∧ (resolveIn m a = .consoleReady ↔ a = m.conReady)
          ∧ (resolveIn m a = .framebuffer ↔ inFramebuffer m a = true)

/-- Framebuffer addresses and cells correspond one to one, row-major (10_state.md R21). -/
def Obligations.CellsAreRowMajor : Prop :=
  (∀ a : Address, 0x0200 ≤ a.toNat → a.toNat < 0x0600 →
      (cellRow a).toNat = (a.toNat - 0x0200) / 32 ∧ (cellCol a).toNat = (a.toNat - 0x0200) % 32
        ∧ cellAddr (cellRow a) (cellCol a) = a)
    ∧ ∀ r c : BitVec 5, (cellAddr r c).toNat = 0x0200 + r.toNat * 32 + c.toNat ∧ (cellAddr r c).toNat < 0x0600
      ∧ cellRow (cellAddr r c) = r ∧ cellCol (cellAddr r c) = c

/-! Bus reads (40_bus_read.md) -/

/-- Every read completes with the byte its address views on the read-data port, and no state but the ports changes (R67; 10_state.md
R28). -/
def Obligations.ReadsReturnTheViewedByte : Prop :=
  ∀ (i : Instr) (s : State), i.wf = true → opcodeOf i = 0b000#3 →
    ∃ t, exec i s = .next t ∧ t.ports.rdata = some (peek s.block (addressOf i)) ∧ t = { s with ports := t.ports }

/-- RD.CDAT, with any DATA field, completes: RDATA <- DATA, and no state but the ports changes; a DRAIN before it changes nothing of that,
and after RESET it returns 0x00 (R70). -/
def Obligations.RdCdatReturnsData : Prop :=
  (∀ d : Byte, decode (opWord 0b000#3 0x00FF#16 d) = .ok .rdCdat)
    ∧ (∀ s : State, ∃ t, exec .rdCdat s = .next t ∧ t.ports.rdata = some s.block.data ∧ t = { s with ports := t.ports })
    ∧ (∀ s : State, ∃ t, execAll [.drain, .rdCdat] s = .next t ∧ t.ports.rdata = some s.block.data)
    ∧ ∀ s : State, ∃ t, execAll [.reset, .rdCdat] s = .next t ∧ t.ports.rdata = some 0x00#8

/-- RD.CRDY, with any DATA field, completes: RDATA <- FLAG, verbatim, and no state but the ports changes; after a DRAIN or a RESET it
returns 0x00 (R69). -/
def Obligations.RdCrdyReturnsFlag : Prop :=
  (∀ d : Byte, decode (opWord 0b000#3 0x00FE#16 d) = .ok .rdCrdy)
    ∧ (∀ s : State, ∃ t, exec .rdCrdy s = .next t ∧ t.ports.rdata = some s.block.flag ∧ t = { s with ports := t.ports })
    ∧ (∀ (s : State) (v : Byte), ∃ t, execAll [.wrCrdy v, .rdCrdy] s = .next t ∧ t.ports.rdata = some v)
    ∧ (∀ s : State, ∃ t, execAll [.drain, .rdCrdy] s = .next t ∧ t.ports.rdata = some 0x00#8)
    ∧ ∀ s : State, ∃ t, execAll [.reset, .rdCrdy] s = .next t ∧ t.ports.rdata = some 0x00#8

/-- RD.FB completes at every cell: RDATA <- fb[r][c] with row r = i / 32 and column c = i mod 32 of the cell index i = a - 0x0200, for the
low pattern (i = x) and the high pattern (i = 512 + x), and no state but the ports changes; and a cell not written since the last RESET
or CLEAR returns 0x00 (R71). -/
def Obligations.RdFbReturnsTheCell : Prop :=
  (∀ (d : Byte) (x : BitVec 9), decode (opWord 0b000#3 (0b0000001#7 ++ x) d) = .ok (.rdFbLow x)
      ∧ decode (opWord 0b000#3 (0b0000010#7 ++ x) d) = .ok (.rdFbHigh x))
    ∧ (∀ (s : State) (x : BitVec 9) (r c : BitVec 5), r.toNat * 32 + c.toNat = x.toNat →
      ∃ t, exec (.rdFbLow x) s = .next t ∧ t.ports.rdata = some ((s.block.fb[r.toNat]'r.isLt)[c.toNat]'c.isLt)
        ∧ t = { s with ports := t.ports })
    ∧ (∀ (s : State) (x : BitVec 9) (r c : BitVec 5), r.toNat * 32 + c.toNat = 512 + x.toNat →
      ∃ t, exec (.rdFbHigh x) s = .next t ∧ t.ports.rdata = some ((s.block.fb[r.toNat]'r.isLt)[c.toNat]'c.isLt)
        ∧ t = { s with ports := t.ports })
    ∧ ∀ (s : State) (j i : Instr) (is : List Instr), j = .reset ∨ j = .clear → (∃ x, i = .rdFbLow x ∨ i = .rdFbHigh x) →
      (∀ k ∈ is, k.wf = true ∧ writesAt k (addressOf i) = none) →
        ∃ t, execAll (j :: is ++ [i]) s = .next t ∧ t.ports.rdata = some 0x00#8

/-- RD.RAM completes at every RAM address, with any DATA field: RDATA <- ram[a], and no state but the ports changes; and a cell not written
since RESET returns 0x00 (R68). -/
def Obligations.RdRamReturnsTheRamCell : Prop :=
  ∀ (s : State) (a : Address), resolve a = .ram →
    (∀ d : Byte, decode (opWord 0b000#3 a d) = .ok (.rdRam a))
    ∧ (∃ t, exec (.rdRam a) s = .next t ∧ t.ports.rdata = some (ramRead s.block.ram a.toNat) ∧ t = { s with ports := t.ports })
    ∧ ∀ is : List Instr, (∀ k ∈ is, k.wf = true ∧ writesAt k a = none) →
        ∃ t, execAll (.reset :: is ++ [.rdRam a]) s = .next t ∧ t.ports.rdata = some 0x00#8

/-! Bus writes (41_bus_write.md) -/

/-- Every write completes, changes the one byte its address views, and leaves every other byte, `out` and every other state but the ports
as they were (R72). -/
def Obligations.WritesChangeOneByte : Prop :=
  ∀ (i : Instr) (s : State), i.wf = true → opcodeOf i = 0b001#3 → s.block.ram.wf = true →
    ∃ t, exec i s = .next t
      ∧ (∀ a, peek t.block a = if a = addressOf i then dataOf i else peek s.block a)
      ∧ t.block.out = s.block.out ∧ t = { s with block := t.block, ports := t.ports }

/-- WR.CDAT completes: DATA <- v, and nothing else of the state but the ports changes, FLAG included; while Pending it replaces the byte
the next DRAIN emits (R75). -/
def Obligations.WrCdatSetsData : Prop :=
  (∀ v : Byte, decode (opWord 0b001#3 0x00FF#16 v) = .ok (.wrCdat v))
    ∧ (∀ (s : State) (v : Byte), ∃ t, exec (.wrCdat v) s = .next t
      ∧ t = { s with block := { s.block with data := v }, ports := t.ports })
    ∧ ∀ (s : State) (v : Byte), s.block.flag ≠ 0x00#8 →
        ∃ t, execAll [.wrCdat v, .drain] s = .next t ∧ t.block.out = s.block.out ++ [v]

/-- WR.CRDY completes: FLAG <- v verbatim, the console Pending exactly if v is not 0x00, and nothing else of the state but the ports
changes (R74). -/
def Obligations.WrCrdySetsFlag : Prop :=
  (∀ v : Byte, decode (opWord 0b001#3 0x00FE#16 v) = .ok (.wrCrdy v))
    ∧ ∀ (s : State) (v : Byte), ∃ t, exec (.wrCrdy v) s = .next t
      ∧ t = { s with block := { s.block with flag := v }, ports := t.ports }
      ∧ (consoleState t.block.flag = .pending ↔ v ≠ 0x00#8) ∧ (consoleState t.block.flag = .idle ↔ v = 0x00#8)

/-- WR.FB completes at every cell: fb[r][c] <- v with row r = i / 32 and column c = i mod 32 of the cell index i = a - 0x0200, for the low
pattern (i = x) and the high pattern (i = 512 + x); every other cell, RAM, the console and every other state but the ports are unchanged
(R76). -/
def Obligations.WrFbSetsOneCell : Prop :=
  (∀ (x : BitVec 9) (v : Byte), decode (opWord 0b001#3 (0b0000001#7 ++ x) v) = .ok (.wrFbLow x v)
      ∧ decode (opWord 0b001#3 (0b0000010#7 ++ x) v) = .ok (.wrFbHigh x v))
    ∧ (∀ (s : State) (x : BitVec 9) (r c : BitVec 5) (v : Byte), r.toNat * 32 + c.toNat = x.toNat →
      ∃ t, exec (.wrFbLow x v) s = .next t
        ∧ (∀ r' c', gridRead t.block.fb r' c' = if r' = r ∧ c' = c then v else gridRead s.block.fb r' c')
        ∧ t = { s with block := { s.block with fb := t.block.fb }, ports := t.ports })
    ∧ ∀ (s : State) (x : BitVec 9) (r c : BitVec 5) (v : Byte), r.toNat * 32 + c.toNat = 512 + x.toNat →
      ∃ t, exec (.wrFbHigh x v) s = .next t
        ∧ (∀ r' c', gridRead t.block.fb r' c' = if r' = r ∧ c' = c then v else gridRead s.block.fb r' c')
        ∧ t = { s with block := { s.block with fb := t.block.fb }, ports := t.ports }

/-- WR.RAM completes at every RAM address: the cell reads v afterwards, every other cell as before, and nothing else of the state but the
ports changes (R73). -/
def Obligations.WrRamSetsOneCell : Prop :=
  ∀ (s : State) (a : Address) (v : Byte), resolve a = .ram → s.block.ram.wf = true →
    decode (opWord 0b001#3 a v) = .ok (.wrRam a v)
    ∧ ∃ t, exec (.wrRam a v) s = .next t
      ∧ (∀ k : Nat, ramRead t.block.ram k = if k = a.toNat then v else ramRead s.block.ram k)
      ∧ t = { s with block := { s.block with ram := t.block.ram }, ports := t.ports }

/-- The Bus's own read and write (by the address decoder) are the decoded operations; a wider access is refused (R67, R72;
20_memory.md R38, R39). -/
def Obligations.BusSurfaceIsTheOperations : Prop :=
  (∀ (a : Address) (s : State), ∃ i, decode (readWord a) = .ok i ∧ exec i s = memRead a 1 s)
    ∧ (∀ (a : Address) (v : Byte) (s : State), ∃ i, decode (writeWord a v) = .ok i ∧ exec i s = memWrite a 1 v s)
    ∧ ∀ (a : Address) (v : Byte) (n : Nat) (s : State), n ≠ 1 →
        memRead a n s = .refused .multiByteAccess ∧ memWrite a n v s = .refused .multiByteAccess

/-- The side effects of bus operations (20_memory.md R42): (a) a read changes nothing, and two reads with no write of that address between
them return the same byte; (b) a write changes the one byte its address views; (c) a write to 0x00FE alone can change the console state;
(d) no write appends to `out`; (e) a write is idempotent. -/
def Obligations.BusSideEffects : Prop :=
  (∀ (a : Address) (s : State) (is : List Instr), s.block.ram.wf = true →
      (∀ k ∈ is, k.wf = true ∧ writesAt k a = none) →
      ∃ i t u v, decode (readWord a) = .ok i ∧ exec i s = .next t ∧ t.block = s.block
        ∧ execAll is t = .next u ∧ exec i u = .next v ∧ v.block = u.block
        ∧ v.ports.rdata = t.ports.rdata ∧ t.ports.rdata = some (peek s.block a))
    ∧ ∀ (a : Address) (v : Byte) (s : State), s.block.ram.wf = true →
      ∃ i t u, decode (writeWord a v) = .ok i ∧ exec i s = .next t ∧ exec i t = .next u
        ∧ (∀ b, peek t.block b = if b = a then v else peek s.block b)
        ∧ (consoleState t.block.flag ≠ consoleState s.block.flag → a = 0x00FE#16)
        ∧ t.block.out = s.block.out ∧ u.block = t.block

/-- A port a step does not drive shows nothing: the read-data port after every operation but a READ, the console output port after every
operation but a DRAIN when Pending, the frame port after every operation but a FRAME, and all three at reset and after the host's abort.
This is the model's choice (log 5): the spec says only what the driven port returns (R58). -/
def Obligations.UndrivenPortsShowNothing : Prop :=
  (∀ (i : Instr) (s t : State), exec i s = .next t →
      (opcodeOf i ≠ 0b000#3 → t.ports.rdata = none)
      ∧ (i ≠ .drain ∨ s.block.flag = 0x00#8 → t.ports.console = none)
      ∧ (i ≠ .frame → t.ports.frame = none))
    ∧ State.reset.ports = { rdata := none, console := none, frame := none }
    ∧ ∀ s t : State, step s = .next t → s.overBudget = true → t.ports = { rdata := none, console := none, frame := none }

/-! The console and the consumer (42_console.md) -/

/-- DRAIN completes. Pending: `out` gains DATA, which the console output port delivers, and FLAG becomes 0x00. Idle: no state but the ports
changes. DATA is kept in either case (R79). -/
def Obligations.DrainEmitsThePendingByte : Prop :=
  ∀ s : State,
    (s.block.flag ≠ 0x00#8 → ∃ t, exec .drain s = .next t ∧ t.ports.console = some s.block.data
      ∧ t = { s with block := { s.block with out := s.block.out ++ [s.block.data], flag := 0x00#8 }, ports := t.ports })
    ∧ (s.block.flag = 0x00#8 → ∃ t, exec .drain s = .next t ∧ t = { s with ports := t.ports })
    ∧ decode 0x2000000#27 = .ok .drain

/-- Every operation moves FLAG, DATA and `out` as the console's transition table says (R78). -/
def Obligations.ConsoleFollowsItsTable : Prop :=
  ∀ (i : Instr) (s : State), i.wf = true →
    ∃ t, exec i s = .next t
      ∧ (t.block.flag, t.block.data, t.block.out) = consoleAfter i s.block.flag s.block.data s.block.out

/-- One iteration of a busy-wait, on the client's turn: RDATA is FLAG, the block is unchanged, `spin` counts the iterations of this
busy-wait (the first as 1), the client yields, and it stays in the loop exactly if its predicate holds of the byte read (10_state.md R25;
30_encoding.md R64; 42_console.md R83). EqOne waits exactly on 0x01, NeZero on every nonzero value; on 0x00 and 0x01 they agree and on
every other value they differ (R85). That `spin` keeps its value after the busy-wait is left is the model's reading (log 10); that the
iteration names no result is the model's choice (log 17), and so are the oldest turn going first and the list a looping client goes on
with (log 7). -/
def Obligations.PollIterationReadsAndYields : Prop :=
  (∀ (s : State) (ts : List Turn) (rest : List ScriptItem), s.hung = false → s.overBudget = false →
    s.turns = .client :: ts → s.upcoming = .poll :: rest →
      ∃ t, step s = .next t ∧ t.ports.rdata = some s.block.flag
        ∧ t = { s with turns := ts, spin := if s.waiting then s.spin + 1 else 1, yielded := true, ports := t.ports,
                       waiting := pollContinues s.params.polarity s.block.flag,
                       script := if pollContinues s.params.polarity s.block.flag then .poll :: rest else rest })
    ∧ ∀ v : Byte, (pollContinues .eqOne v = true ↔ v = 0x01#8) ∧ (pollContinues .neZero v = true ↔ v ≠ 0x00#8)
      ∧ (pollContinues .eqOne v = pollContinues .neZero v ↔ v = 0x00#8 ∨ v = 0x01#8)

/-- With nothing scheduled, SCHED_COOP: the consumer's DRAIN follows a yield, and with no yield, or no consumer, the client goes on (R82);
and the free order: its next move is the next turn. That the scheduled turns come before the run's order is the model's choice (log 7),
and that a free order is a constant of Config applied to a counter is too (log 16). -/
def Obligations.CooperativeSchedule : Prop :=
  ∀ s : State, s.hung = false → s.overBudget = false → s.turns = [] →
    (s.order = .coop →
      (s.yielded = true → s.params.consumerPresent = true → step s = exec .drain { s with yielded := false })
      ∧ (s.yielded = false ∨ s.params.consumerPresent = false → step s = step { s with turns := [.client] }))
    ∧ (s.order = .free →
        step s = step { s with turns := [moveTurn s.params (Config.freeMove s.tick)], tick := s.tick + 1 })

/-- With no consumer no DRAIN step occurs, and FLAG returns to 0x00 only by a client write of 0x00 or a reset (R81). -/
def Obligations.AbsentConsumerNeverDrains : Prop :=
  ∀ s t : State, s.params.consumerPresent = false → step s = .next t →
    nextOp s ≠ some .drain
      ∧ (s.block.flag ≠ 0x00#8 → t.block.flag = 0x00#8 → nextOp s = some (.wrCrdy 0x00#8) ∨ nextOp s = some .reset)

/-- With no consumer and no budget, a busy-wait whose predicate holds of FLAG never ends (70_reset_and_hazards.md R110): in every finite
order of client turns, FRAMEs and CLEARs each client turn is one more read of the flag, and RAM, the console and what the client is to do
stay; every infinite order of such turns has an infinite run in which that is so; and under SCHED_COOP every step is such a read. That
`spin` restarts at the first iteration is R25's count. Orders and the cooperative run after the scheduled turns are as log 7 says. -/
def Obligations.BusyWaitWithoutConsumerNeverEnds : Prop :=
  ∀ (s : State) (rest : List ScriptItem), s.params.consumerPresent = false → s.params.stepBudget = none → s.hung = false →
    s.upcoming = .poll :: rest → pollContinues s.params.polarity s.block.flag = true →
      (∀ us : List Turn, (∀ u ∈ us, u.keepsProtocol = true ∧ u ≠ .port (encode .drain)) →
        ∃ t, runBy us s = .next t ∧ t.block = { s.block with fb := t.block.fb } ∧ t.upcoming = s.upcoming
          ∧ (.client ∈ us → t.spin = (if s.waiting then s.spin else 0) + us.count .client))
      ∧ (∀ order : Nat → Turn, (∀ n, (order n).keepsProtocol = true ∧ order n ≠ .port (encode .drain)) →
        ∃ run, run 0 = s ∧ InfiniteRun order run
          ∧ ∀ n, (run n).block = { s.block with fb := (run n).block.fb } ∧ (run n).upcoming = s.upcoming)
      ∧ (s.turns = [] → s.order = .coop → ∀ k : Nat, ∃ t, runSteps (k + 1) s = .next t ∧ t.block = s.block
          ∧ t.upcoming = s.upcoming ∧ t.spin = (if s.waiting then s.spin else 0) + (k + 1))

/-- With a consumer, a client that terminates, any turns scheduled first and SCHED_COOP after them, every run ends, under either polarity
and any budget: the consumer's step after each yield ends every busy-wait (R80, R82). That a run takes a list of turns first and then goes
on by its order is the model's choice (log 7), and so is what its end is (log 12). -/
def Obligations.RunsWithAConsumerEnd : Prop :=
  ∀ s : State, s.params.consumerPresent = true → s.loop = [] → s.order = .coop →
    ∃ k, (∃ f, runSteps k s = .fault f) ∨ ∃ r, runSteps k s = .refused r

/-- `puts s` from an Idle console under SCHED_COOP, with a consumer and no budget: after six steps a byte the program is done, `out` has
gained exactly the bytes of s in order, and the console is Idle, under either polarity (R86, R82; 95_test_vectors.md P1). That the run
ends at the client's next turn is the model's choice (log 12). -/
def Obligations.PutsDeliversUnderCooperation : Prop :=
  ∀ (bs : List Byte) (s : State), s.params.consumerPresent = true → s.params.stepBudget = none → s.hung = false →
    s.yielded = false → s.turns = [] → s.order = .coop → s.script = puts bs → s.loop = [] → s.block.flag = 0x00#8 →
      ∃ t, runSteps (6 * bs.length) s = .next t ∧ t.block.out = s.block.out ++ bs ∧ t.script = []
        ∧ t.block.flag = 0x00#8 ∧ t.block.ram = s.block.ram ∧ t.block.fb = s.block.fb ∧ step t = .fault .runDone

/-- `puts s` from an Idle console, whatever finite interleaving of client turns, DRAINs, FRAMEs and CLEARs: a run of such turns that has
come to the end of the program, if it does, has delivered exactly the bytes of s, in order; and a run that goes on by SCHED_COOP after
such turns, with a consumer and no budget, comes to that end (R86, R82). That it goes on so is the model's choice (log 7). -/
def Obligations.PutsDeliversUnderAnySchedule : Prop :=
  ∀ (bs : List Byte) (s : State), s.script = puts bs → s.loop = [] → s.block.flag = 0x00#8 →
    (∀ (us : List Turn) (t : State), (∀ u ∈ us, u.keepsProtocol = true) → runBy us s = .next t → t.script = [] →
      t.block.out = s.block.out ++ bs ∧ t.block.flag = 0x00#8)
    ∧ (s.params.consumerPresent = true → s.params.stepBudget = none → s.hung = false → s.order = .coop →
      (∀ u ∈ s.turns, u.keepsProtocol = true) →
        ∃ k t, runSteps k s = .next t ∧ t.script = [] ∧ t.block.out = s.block.out ++ bs ∧ t.block.flag = 0x00#8)

/-- Handshake liveness: in every infinite run of client turns, DRAINs, FRAMEs and CLEARs, in any order that is weakly fair to the consumer
(R80) and does not leave out a client that has an operation left, `puts s` from an Idle console terminates, and then `out` has gained
exactly the bytes of s, in order (R86). That the client is served is said of the order because R80 speaks of the consumer only (log 7). -/
def Obligations.PutsDeliversUnderEveryFairOrder : Prop :=
  ∀ (bs : List Byte) (order : Nat → Turn) (run : Nat → State), InfiniteRun order run → WeaklyFair order run →
    ClientIsServed order run → (∀ n, (order n).keepsProtocol = true) → (run 0).params.consumerPresent = true →
    (run 0).script = puts bs → (run 0).loop = [] → (run 0).block.flag = 0x00#8 →
      ∃ n, (run n).script = [] ∧ (run n).block.out = (run 0).block.out ++ bs ∧ (run n).block.flag = 0x00#8

/-! The display sink and the host (43_host.md, 70_reset_and_hazards.md) -/

/-- FRAME completes: the grid on the frame port, and no state but the ports changes; after a RESET or a CLEAR every entry is 0x00; after a
write of cell (r, c) it shows the byte written there and every other cell as before, and before that write it shows none of it (R87;
20_memory.md R47). -/
def Obligations.FrameReturnsTheGrid : Prop :=
  decode 0x3000000#27 = .ok .frame
    ∧ (∀ s : State, ∃ t, exec .frame s = .next t ∧ t.ports.frame = some s.block.fb ∧ t = { s with ports := t.ports })
    ∧ (∀ (s : State) (j : Instr), j = .reset ∨ j = .clear →
        ∃ t g, execAll [j, .frame] s = .next t ∧ t.ports.frame = some g ∧ ∀ r c, gridRead g r c = 0x00#8)
    ∧ ∀ (s : State) (r c : BitVec 5) (v : Byte),
        ∃ i t u g, decode (writeWord (cellAddr r c) v) = .ok i ∧ exec i s = .next t ∧ exec .frame t = .next u
          ∧ u.ports.frame = some g ∧ u.block = t.block
          ∧ ∀ r' c', gridRead g r' c' = if r' = r ∧ c' = c then v else gridRead s.block.fb r' c'

/-- CLEAR completes: every cell is 0x00; RAM, DATA, FLAG, `out` and every other state but the ports are unchanged; on an all-zero
framebuffer it changes nothing of the block (R88). -/
def Obligations.ClearBlanksTheFramebuffer : Prop :=
  decode 0x4000000#27 = .ok .clear
    ∧ ∀ s : State, ∃ t, exec .clear s = .next t ∧ (∀ r c, gridRead t.block.fb r c = 0x00#8)
      ∧ t = { s with block := { s.block with fb := t.block.fb }, ports := t.ports }
      ∧ ((∀ r c, gridRead s.block.fb r c = 0x00#8) → t.block = s.block)

/-- RESET completes: every byte of the address space reads 0x00, the console is Idle with DATA 0x00, `out` is empty and `spin` is 0; in
the launch state it changes no element (70_reset_and_hazards.md R104). -/
def Obligations.ResetReturnsToLaunch : Prop :=
  decode 0x5000000#27 = .ok .reset
    ∧ (∀ s : State, ∃ t, exec .reset s = .next t ∧ (∀ a, peek t.block a = 0x00#8) ∧ (∀ k, ramRead t.block.ram k = 0x00#8)
      ∧ (∀ r c, gridRead t.block.fb r c = 0x00#8) ∧ t.block.data = 0x00#8 ∧ t.block.flag = 0x00#8 ∧ t.block.out = []
      ∧ t.spin = 0)
    ∧ ∃ t, exec .reset State.reset = .next t ∧ t.block = State.reset.block ∧ t.spin = State.reset.spin

/-- Every element has its launch value at reset, after a RESET operation, and where a launched run starts (10_state.md R26). -/
def Obligations.LaunchValues : Prop :=
  ((∀ k, ramRead State.reset.block.ram k = 0x00#8) ∧ State.reset.block.data = 0x00#8 ∧ State.reset.block.flag = 0x00#8
      ∧ consoleState State.reset.block.flag = .idle ∧ (∀ r c, gridRead State.reset.block.fb r c = 0x00#8)
      ∧ State.reset.block.out = [] ∧ State.reset.spin = 0)
    ∧ (∀ s : State, ∃ t, exec .reset s = .next t ∧ t.block = State.reset.block ∧ t.spin = 0)
    ∧ ∀ l : Load, ∃ t, launch hardwareMap l = .next t ∧ t.block = State.reset.block ∧ t.spin = 0

/-- What the model chose for the agents: a RESET leaves the client's program, its names, the schedule, the yield and the parameters as they
were (log 15), and a launched run holds the load it was given, with no result named, no busy-wait entered and no move taken (log 6). -/
def Obligations.ResetAndLaunchTreatTheAgents : Prop :=
  (∀ s t : State, exec .reset s = .next t → t = { s with block := t.block, spin := t.spin, ports := t.ports })
    ∧ ∀ l : Load, ∃ t, launch hardwareMap l = .next t ∧ t.params = l.params ∧ t.script = l.script ∧ t.loop = l.loop
        ∧ t.turns = l.turns ∧ t.order = l.order ∧ t.names = [] ∧ t.waiting = false ∧ t.tick = 0 ∧ t.yielded = false
        ∧ t.hung = false

/-- The host aborts a client whose `spin` exceeds the budget: the run ends `Hang`, the block unchanged, and no step follows (R89).
That the abort comes before any other agent's step is the model's choice (log 11). -/
def Obligations.HostAbortsOverBudget : Prop :=
  ∀ (s : State) (n : Nat), s.hung = false → s.params.stepBudget = some n → n < s.spin →
    ∃ t, step s = .next t ∧ t.hung = true ∧ t.block = s.block ∧ t.spin = s.spin ∧ step t = .fault .runHang

/-- With no consumer and a budget of n, a busy-wait whose predicate holds of FLAG ends `Hang`: in every order of client turns, FRAMEs and
CLEARs, the client turn that makes `spin` n + 1 is followed by the abort, with RAM and the console as they were, and no step follows it;
under SCHED_COOP that is n + 1 iterations, less those already made of this busy-wait, and the abort (R89; 70_reset_and_hazards.md R110;
95_test_vectors.md P5). The abort's place in the order is the model's choice (log 11), and so is SCHED_COOP after the schedule (log 7). -/
def Obligations.HangIsReportedWithinTheBudget : Prop :=
  ∀ (s : State) (rest : List ScriptItem) (n : Nat), s.params.consumerPresent = false → s.params.stepBudget = some n →
    s.hung = false → s.upcoming = .poll :: rest → pollContinues s.params.polarity s.block.flag = true → s.spin ≤ n →
      (∀ us : List Turn, (∀ u ∈ us, u.keepsProtocol = true ∧ u ≠ .port (encode .drain)) →
        us.count .client = n - (if s.waiting then s.spin else 0) →
          ∃ t u, runBy (us ++ [.client]) s = .next t ∧ t.spin = n + 1 ∧ t.block = { s.block with fb := t.block.fb }
            ∧ step t = .next u ∧ u.hung = true ∧ u.block = t.block ∧ step u = .fault .runHang)
      ∧ (s.turns = [] → s.order = .coop →
          ∃ t, runSteps (n + 2 - (if s.waiting then s.spin else 0)) s = .next t ∧ t.hung = true ∧ t.block = s.block
            ∧ t.spin = n + 1 ∧ step t = .fault .runHang)

/-- A run is `Done` only at a client with no further operation, now or later; and a client that loops for ever runs for ever: with no
budget, and every name it uses given, under SCHED_COOP and under a free order alike, with a consumer or none, each number of steps is
followed by another (43_host.md R90). That a loop is a list of operations done over and over is the model's choice (log 7), and so is that
a free order is a constant of Config whose DRAIN, where there is no consumer, gives its place to the client (log 16); that a RESET leaves
the client's program and its names is the model's reading (log 15), and the turn at which a run is `Done` is its choice (log 12). -/
def Obligations.ALoopingClientRunsForEver : Prop :=
  (∀ s : State, step s = .fault .runDone → s.script = [] ∧ s.loop = [])
    ∧ ∀ s : State, s.hung = false → s.params.stepBudget = none → s.turns = [] → s.loop ≠ [] →
        (∀ x ∈ s.script ++ s.loop, x.usesOnly (s.names.map Prod.fst) = true) → ∀ k : Nat, ∃ t, runSteps k s = .next t

/-- The framebuffer lasts: WR.FB leaves every cell but the one its address names, and every other operation but CLEAR and RESET leaves the
whole grid as it was (10_state.md R22). -/
def Obligations.FramebufferPersists : Prop :=
  ∀ (i : Instr) (s : State), i.wf = true → i ≠ .clear → i ≠ .reset →
    ∃ t, exec i s = .next t
      ∧ (∀ r c, ¬(r = cellRow (addressOf i) ∧ c = cellCol (addressOf i)) → gridRead t.block.fb r c = gridRead s.block.fb r c)
      ∧ ((∀ x v, i ≠ .wrFbLow x v ∧ i ≠ .wrFbHigh x v) → t.block.fb = s.block.fb)

/-! Hazards (70_reset_and_hazards.md) -/

/-- H1: a DATA write while Pending loses the earlier byte; the next DRAIN emits the newer byte, once (R109). -/
def Obligations.OverwriteWhilePendingLosesTheByte : Prop :=
  ∀ (s : State) (b b2 : Byte) (v : Byte), v ≠ 0x00#8 →
    ∃ t, execAll [.wrCdat b, .wrCrdy v, .wrCdat b2] s = .next t ∧ t.block.out = s.block.out
      ∧ ∀ k : Nat, ∃ u, execAll (List.replicate (k + 1) .drain) t = .next u ∧ u.block.out = s.block.out ++ [b2]

/-- H4: with the flag raised before the data, a DRAIN between the two writes emits the old DATA, and the new byte is not sent by any
number of further DRAINs until the client raises FLAG again (R112). -/
def Obligations.FlagBeforeDataSendsTheOldByte : Prop :=
  ∀ (s : State) (b v : Byte), v ≠ 0x00#8 → ∀ k : Nat,
    ∃ t, execAll ([.wrCrdy v, .drain, .wrCdat b] ++ List.replicate k .drain) s = .next t
      ∧ t.block.out = s.block.out ++ [s.block.data] ∧ t.block.flag = 0x00#8

/-- H5: a client write of 0x00 to FLAG while Pending makes the console Idle, and no number of DRAINs emits the pending byte (R113). -/
def Obligations.ClientClearDropsTheByte : Prop :=
  ∀ s : State, s.block.flag ≠ 0x00#8 → ∀ k : Nat,
    ∃ t, execAll (.wrCrdy 0x00#8 :: List.replicate k .drain) s = .next t
      ∧ consoleState t.block.flag = .idle ∧ t.block.out = s.block.out

/-- Data and flag arrive together: DATA written, then FLAG, with no other write to DATA, and FLAG not written again: then FLAG and DATA
are as written, and a DRAIN emits that byte (20_memory.md R46). -/
def Obligations.DataAndFlagArriveTogether : Prop :=
  ∀ (s : State) (b v : Byte) (mid tail : List Instr), v ≠ 0x00#8 →
    (∀ i ∈ mid ++ tail, i.wf = true ∧ writesAt i 0x00FF#16 = none) → (∀ i ∈ tail, writesAt i 0x00FE#16 = none) →
      ∃ t u, execAll (.wrCdat b :: mid ++ .wrCrdy v :: tail) s = .next t ∧ t.block.flag = v ∧ t.block.data = b
        ∧ exec .drain t = .next u ∧ u.block.out = t.block.out ++ [b] ∧ u.ports.console = some b

/-! The whole machine -/

/-- Every operation a word decodes to completes normally, in every state: the block raises nothing (60_exceptions.md R92). -/
def Obligations.EveryLegalWordCompletes : Prop :=
  ∀ (w : OpWord) (i : Instr) (s : State), decode w = .ok i → ∃ t, exec i s = .next t

/-- A read sees the value the last earlier operation that wrote its location left there, and the value before the run if none did: after
any sequence of operations, every address views the last byte written there (20_memory.md R45). -/
def Obligations.ReadsSeeTheLastWrite : Prop :=
  ∀ (is : List Instr) (s : State), (∀ i ∈ is, i.wf = true) → s.block.ram.wf = true →
    ∃ t, execAll is s = .next t ∧ ∀ a, peek t.block a = lastWritten is a (peek s.block a)

/-- Two blocks with equal views of every address and equal `out` are the same block, so no operation tells them apart (10_state.md R28).
The premise is the invariant `Block.wf`; that equal views make equal lists rests on RAM's canonical form (log 2). -/
def Obligations.TheBusViewIsTheState : Prop :=
  ∀ b c : Block, b.wf = true → c.wf = true → (∀ a, peek b a = peek c a) → b.out = c.out →
    b = c ∧ ∀ (i : Instr) (s : State), exec i { s with block := b } = exec i { s with block := c }

/-- Each element has its own writers: RAM by WR.RAM and RESET, DATA by WR.CDAT and RESET, FLAG by WR.CRDY, DRAIN (0x00 only) and RESET,
the framebuffer by WR.FB (the cell its address names), CLEAR and RESET, `out` by DRAIN (DATA appended) and RESET (10_state.md R27). -/
def Obligations.EachElementHasItsWriters : Prop :=
  ∀ (i : Instr) (s t : State), exec i s = .next t →
    (t.block.ram ≠ s.block.ram → (∃ a v, i = .wrRam a v) ∨ i = .reset)
    ∧ (t.block.data ≠ s.block.data → (∃ v, i = .wrCdat v) ∨ i = .reset)
    ∧ (t.block.flag ≠ s.block.flag → (∃ v, i = .wrCrdy v) ∨ (i = .drain ∧ t.block.flag = 0x00#8) ∨ i = .reset)
    ∧ (t.block.fb ≠ s.block.fb →
        (∃ x v, i = .wrFbLow x v ∧ t.block.fb = gridWrite s.block.fb (cellRow (fbLowAddr x)) (cellCol (fbLowAddr x)) v)
        ∨ (∃ x v, i = .wrFbHigh x v ∧ t.block.fb = gridWrite s.block.fb (cellRow (fbHighAddr x)) (cellCol (fbHighAddr x)) v)
        ∨ i = .clear ∨ i = .reset)
    ∧ (t.block.out ≠ s.block.out → (i = .drain ∧ t.block.out = s.block.out ++ [s.block.data]) ∨ i = .reset)

/-- Every step keeps RAM canonical and free of device addresses (10_state.md R15), a client inside a busy-wait at its `poll` (R25), and
each name to one result (30_encoding.md R62). RAM's canonical form (log 2) and one result a name (log 13) are the model's, and that a
RESET leaves the busy-wait and the names is the model's reading (log 15). -/
def Obligations.StepKeepsTheInvariant : Prop :=
  ∀ s t : State, s.wf = true → step s = .next t → t.wf = true

/-- The invariant holds at reset: RAM lists nothing, no busy-wait is entered and no result is named. RAM's canonical form is the model's
(log 2), and that no busy-wait and no named result is there at reset is the model's choice (log 6): the spec gives neither a reset value. -/
def Obligations.ResetMeetsTheInvariant : Prop :=
  State.reset.wf = true

/-- Over every step of the run, `out` is unchanged, or gains the pending DATA as FLAG is cleared by a DRAIN, or is emptied by a RESET
(10_state.md R23, R27; 42_console.md R79). -/
def Obligations.OutGrowsOnlyByDrain : Prop :=
  ∀ s t : State, step s = .next t →
    t.block.out = s.block.out
    ∨ (nextOp s = some .drain ∧ s.block.flag ≠ 0x00#8 ∧ t.block.out = s.block.out ++ [s.block.data] ∧ t.block.flag = 0x00#8)
    ∨ (nextOp s = some .reset ∧ t.block.out = [])

/-- No step changes the run's parameters, its order or the client's loop; the client's program stays where it is, or goes on at the front
of what is to come; and a step takes the oldest scheduled turn (00_scope.md R7; 20_memory.md R44: each agent's own order is kept). That
the turns are taken in the list's order is the model's choice (log 7); that the host's abort comes before the scheduled turn and takes
none is the model's reading (log 11), and so is that a RESET leaves the client's program, its loop and the schedule (log 15). -/
def Obligations.StepConsumesInOrder : Prop :=
  ∀ s t : State, step s = .next t →
    t.params = s.params ∧ t.order = s.order ∧ t.loop = s.loop
      ∧ (t.script = s.script ∨ t.script = s.upcoming ∨ ∃ x, s.upcoming = x :: t.script)
      ∧ (s.overBudget = false → t.turns = s.turns.tail)
      ∧ (s.overBudget = true → t.turns = s.turns ∧ t.script = s.script ∧ t.block = s.block)

/-- A presented word is run: where the run goes on and the oldest turn presents a word that decodes to i, the step is exec of i, the turn
taken, with `spin`, the busy-wait and the yield ended by a client operation and the yield ended by the consumer's (00_scope.md R11;
30_encoding.md R52; 42_console.md R83). That a READ or WRITE presented at the port, RD.CRDY included, is the client's operation and no
poll read is the model's reading (log 14), and so is that a DRAIN where there is no consumer is refused (log 9); that the oldest turn
goes first is the model's choice (log 7). -/
def Obligations.StepRunsTheDecodedOperation : Prop :=
  ∀ (s : State) (w : OpWord) (ts : List Turn) (i : Instr), s.hung = false → s.overBudget = false → s.turns = .port w :: ts →
    decode w = .ok i →
      (issuerOf i = .client → step s = exec i { s with turns := ts, spin := 0, waiting := false, yielded := false })
      ∧ (i = .drain → s.params.consumerPresent = true → step s = exec i { s with turns := ts, yielded := false })
      ∧ (i = .drain → s.params.consumerPresent = false → step s = .refused .consumerAbsent)
      ∧ (i = .frame ∨ i = .clear ∨ i = .reset → step s = exec i { s with turns := ts })

/-- The client's reads and writes go through the port: on its turn, its next item is run as the operation its word decodes to, the named
results standing for their bytes, in program order; `spin` restarts (20_memory.md R44; 30_encoding.md R62; 42_console.md R83; 43_host.md
R90). That a looping client goes on from the start of a list once its script has run out is the model's choice (log 7). That a turn of a
client with no operation left, now or later, ends the run is the model's choice (log 12), and that an item with a name nothing has is
refused is too (log 13). -/
def Obligations.ClientTurnRunsItsNextItem : Prop :=
  ∀ (s : State) (ts : List Turn) (rest : List ScriptItem), s.hung = false → s.overBudget = false → s.turns = .client :: ts →
    (∀ a name a', s.upcoming = .read a name :: rest → a.value s.names = some a' → ∃ i, decode (readWord a') = .ok i
      ∧ step s = exec i { s with turns := ts, script := rest, names := bindResult name (peek s.block a') s.names,
                                 spin := 0, waiting := false, yielded := false })
    ∧ (∀ a v a' v', s.upcoming = .write a v :: rest → a.value s.names = some a' → v.value s.names = some v' →
      ∃ i, decode (writeWord a' v') = .ok i
        ∧ step s = exec i { s with turns := ts, script := rest, spin := 0, waiting := false, yielded := false })
    ∧ (∀ a name, s.upcoming = .read a name :: rest → a.value s.names = none → step s = .refused .unboundName)
    ∧ (∀ a v, s.upcoming = .write a v :: rest → a.value s.names = none ∨ v.value s.names = none →
      step s = .refused .unboundName)
    ∧ (s.script = [] → s.loop = [] → step s = .fault .runDone)

/-- A word placed by `withFetchWord` is what the very next step runs, from every state (the model's own interface, log 6). -/
def Obligations.PlacedWordRunsNext : Prop :=
  ∀ (s : State) (n w : Nat) (i : Instr), decodeTableWord n w = some i →
    ∃ s', step (s.withFetchWord n w) = exec i s' ∧ s'.block = s.block ∧ s'.script = s.script ∧ s'.turns = s.turns

/-! Scripts (30_encoding.md R62 to R66) -/

/-- `pset` and `pget` are the write and the read of 0x0200 + 32*r + c for a row and column below 32, and are refused, not wrapped,
otherwise (R65); `putc b` is data first, then flag value 0x01, then the busy-wait (R63), and `puts` is its bytes' `putc` in order, nothing
for the empty string (R66). That a row or column out of range is refused by that name where the byte is refused too (out of range, or a
name) is the model's choice (log 13). -/
def Obligations.PseudoOperationsExpand : Prop :=
  (∀ (r c : Nat) (v : ScriptNum) (bound : List Name),
    (r < 32 → c < 32 → lineWord (.pset r c v) = lineWord (.write (.num (0x0200 + 32 * r + c)) v)
      ∧ lineItems bound (.pset r c v) = lineItems bound (.write (.num (0x0200 + 32 * r + c)) v)
      ∧ lineWord (.pget r c) = lineWord (.read (.num (0x0200 + 32 * r + c)))
      ∧ lineItems bound (.pget r c) = lineItems bound (.read (.num (0x0200 + 32 * r + c))))
    ∧ (32 ≤ r ∨ 32 ≤ c → lineWord (.pset r c v) = .error .cellRange ∧ lineWord (.pget r c) = .error .cellRange
      ∧ lineItems bound (.pset r c v) = .error .cellRange ∧ lineItems bound (.pget r c) = .error .cellRange))
    ∧ (∀ b : Byte, putc b = [.write (.lit 0x00FF#16) (.lit b), .write (.lit 0x00FE#16) (.lit 0x01#8), .poll])
    ∧ puts [] = [] ∧ (∀ bs cs : List Byte, puts (bs ++ cs) = puts bs ++ puts cs) ∧ ∀ b : Byte, puts [b] = putc b

/-- A named result reaches the later lines: `name <- read(a)` followed by `write(b, name)` puts the byte of a at b and leaves every other
byte, the name stands for it and the other names for what they stood for; the transcriber takes a name that an earlier line gives (R62).
That a name stands for its byte in the place of a later line's DATA, that a name given again stands for the later result, and that the
transcriber refuses a name no earlier line gives are the model's choices (log 13); that a looping client's list goes on with its rest is
too (log 7). -/
def Obligations.NamedResultsReachLaterLines : Prop :=
  (∀ (s : State) (n : Name) (a b : Address) (rest : List ScriptItem), s.hung = false → s.overBudget = false →
    s.block.ram.wf = true → s.upcoming = .read (.lit a) (some n) :: .write (.lit b) (.named n) :: rest →
      ∃ t u, stepBy .client s = .next t ∧ stepBy .client t = .next u ∧ t.block = s.block
        ∧ t.ports.rdata = some (peek s.block a) ∧ nameValue n t.names = t.ports.rdata
        ∧ (∀ m, m ≠ n → nameValue m t.names = nameValue m s.names) ∧ u.names = t.names ∧ u.script = rest
        ∧ ∀ c, peek u.block c = if c = b then peek s.block a else peek s.block c)
    ∧ (∀ (n : Name) (a b : Nat) (bound : List Name), a < 0x10000 → b < 0x10000 →
      scriptProgram bound [.named n (.num a), .write (.num b) (.name n)]
        = .ok [.read (.lit (BitVec.ofNat 16 a)) (some n), .write (.lit (BitVec.ofNat 16 b)) (.named n)])
    ∧ ∀ (n : Name) (b : Nat) (bound : List Name), b < 0x10000 → n ∉ bound →
        lineItems bound (.write (.num b) (.name n)) = .error .unboundName
          ∧ lineItems bound (.putc (.name n)) = .error .unboundName ∧ lineItems bound (.read (.name n)) = .error .unboundName

/-- A number of a script out of range is refused and never truncated, in every line that has one: `read`, `name <- read` and `write`, and
the bytes of `pset`, `putc` and `puts`; in range, a `read` and a `write` are the words of their operations and `putc` and `puts` the items
of their bytes (R62, R63, R66). That of two numbers out of range the first one's refusal stands is the model's choice (log 13). -/
def Obligations.ScriptNumbersAreNeverTruncated : Prop :=
  ∀ (a v : Nat) (n : Name) (bound : List Name),
    (a < 0x10000 → v < 0x100 →
      (∃ w, lineWord (.read (.num a)) = .ok w ∧ lineWord (.named n (.num a)) = .ok w ∧ w.toNat = a * 0x100)
      ∧ (∃ w, lineWord (.write (.num a) (.num v)) = .ok w ∧ w.toNat = 0x1000000 + a * 0x100 + v)
      ∧ ∃ a' v', a'.toNat = a ∧ v'.toNat = v ∧ lineItems bound (.read (.num a)) = .ok [.read (.lit a') none]
        ∧ lineItems bound (.named n (.num a)) = .ok [.read (.lit a') (some n)]
        ∧ lineItems bound (.write (.num a) (.num v)) = .ok [.write (.lit a') (.lit v')]
        ∧ lineItems bound (.putc (.num v)) = .ok (putc v'))
    ∧ (0x10000 ≤ a → ∀ x : ScriptNum, lineWord (.read (.num a)) = .error .addrRange ∧ lineWord (.named n (.num a)) = .error .addrRange
      ∧ lineWord (.write (.num a) x) = .error .addrRange ∧ lineItems bound (.read (.num a)) = .error .addrRange
      ∧ lineItems bound (.named n (.num a)) = .error .addrRange ∧ lineItems bound (.write (.num a) x) = .error .addrRange)
    ∧ (0x100 ≤ v →
      (a < 0x10000 → lineWord (.write (.num a) (.num v)) = .error .dataRange
        ∧ lineItems bound (.write (.num a) (.num v)) = .error .dataRange)
      ∧ (∀ r c, r < 32 → c < 32 → lineWord (.pset r c (.num v)) = .error .dataRange
        ∧ lineItems bound (.pset r c (.num v)) = .error .dataRange)
      ∧ lineItems bound (.putc (.num v)) = .error .dataRange)
    ∧ (∀ vs : List Nat, v ∈ vs → 0x100 ≤ v → lineItems bound (.puts vs) = .error .dataRange)
    ∧ ∀ bs : List Byte, lineItems bound (.puts (bs.map BitVec.toNat)) = .ok (puts bs)
end

