-- ==== Sys2Proof/Laws/Grid.lean ====
section
/-! SUPPORT. The framebuffer: a cell after a write, the blank grid, equal reads mean equal grids, and cells by address. -/

namespace Sys2Proof.Machine

open Sys2Proof

/-- A cell after a write: the byte written there, and every other cell as before. -/
theorem gridRead_gridWrite (g : Grid) (r c r' c' : BitVec 5) (v : Byte) :
    gridRead (gridWrite g r c v) r' c' = if r = r' ∧ c = c' then v else gridRead g r' c' := by
  unfold gridRead gridWrite
  rw [Vector.getElem_set]
  by_cases hr : r = r'
  · subst hr
    rw [if_pos rfl, Vector.getElem_set]
    by_cases hc : c = c'
    · subst hc; simp
    · rw [if_neg (fun h => hc (BitVec.eq_of_toNat_eq h)), if_neg (fun h => hc h.2)]
  · rw [if_neg (fun h => hr (BitVec.eq_of_toNat_eq h)), if_neg (fun h => hr h.1)]

@[simp] theorem gridRead_blank (r c : BitVec 5) : gridRead Grid.blank r c = 0x00#8 := by
  simp [gridRead, Grid.blank]

/-- Grids with equal cells are equal. -/
theorem grid_ext {g h : Grid} (e : ∀ r c, gridRead g r c = gridRead h r c) : g = h := by
  ext r hr c hc
  have := e (BitVec.ofNat 5 r) (BitVec.ofNat 5 c)
  simp only [gridRead, BitVec.toNat_ofNat, Nat.mod_eq_of_lt (show r < 2 ^ 5 from hr),
    Nat.mod_eq_of_lt (show c < 2 ^ 5 from hc)] at this
  rw [this]

end Sys2Proof.Machine
end

