-- ==== Sys2Proof/Laws/AddressDecoder.lean ====
section
/-! SUPPORT. The target of an address by its number, and the framebuffer's cells by address. -/

namespace Sys2Proof.Machine

open Sys2Proof

theorem inFramebuffer_iff (m : AddrMap) (a : Address) :
    inFramebuffer m a = true ↔ m.fbBase.toNat ≤ a.toNat ∧ a.toNat < mapFbEnd m := decide_eq_true_iff

/-- `resolve` with this hardware's numbers in it (spec 20_memory.md R34). -/
theorem resolve_eq (a : Address) :
    resolve a = if a.toNat = 0xFF then .consoleData else if a.toNat = 0xFE then .consoleReady
      else if 0x200 ≤ a.toNat ∧ a.toNat < 0x600 then .framebuffer else .ram := by
  have h1 : a = 0x00FF#16 ↔ a.toNat = 0xFF := by rw [← BitVec.toNat_inj]; rfl
  have h2 : a = 0x00FE#16 ↔ a.toNat = 0xFE := by rw [← BitVec.toNat_inj]; rfl
  have h3 : (inFramebuffer hardwareMap a = true) ↔ (0x200 ≤ a.toNat ∧ a.toNat < 0x600) := inFramebuffer_iff ..
  unfold resolve resolveIn
  simp only [hardwareMap] at h3 ⊢
  simp only [h1, h2, h3]

/-- The addresses of the framebuffer (spec 20_memory.md R32). -/
theorem resolve_framebuffer_iff (a : Address) :
    resolve a = .framebuffer ↔ 0x200 ≤ a.toNat ∧ a.toNat < 0x600 := by
  rw [resolve_eq]
  split
  · simp; omega
  · split
    · simp; omega
    · split <;> simp_all

/-- The addresses of RAM (spec 20_memory.md R32). -/
theorem resolve_ram_iff (a : Address) :
    resolve a = .ram ↔ a.toNat ≠ 0xFF ∧ a.toNat ≠ 0xFE ∧ ¬(0x200 ≤ a.toNat ∧ a.toNat < 0x600) := by
  rw [resolve_eq]
  split
  · simp_all
  · split
    · simp_all
    · split <;> simp_all

theorem resolve_consoleData_iff (a : Address) : resolve a = .consoleData ↔ a = 0x00FF#16 := by
  rw [resolve_eq, ← BitVec.toNat_inj]
  split
  · simp_all
  · split
    · simp_all
    · split <;> simp_all

theorem resolve_consoleReady_iff (a : Address) : resolve a = .consoleReady ↔ a = 0x00FE#16 := by
  rw [resolve_eq, ← BitVec.toNat_inj]
  split
  · simp_all
  · split
    · simp_all
    · split <;> simp_all

@[simp] theorem resolve_conData : resolve 0x00FF#16 = .consoleData := by decide

@[simp] theorem resolve_conReady : resolve 0x00FE#16 = .consoleReady := by decide

/-- The low pattern's address by its number (spec 30_encoding.md R55). -/
theorem fbLowAddr_toNat (x : BitVec 9) : (fbLowAddr x).toNat = 0x200 + x.toNat := by
  unfold fbLowAddr
  rw [BitVec.toNat_append, ← Nat.shiftLeft_add_eq_or_of_lt x.isLt]
  rfl

/-- The high pattern's address by its number (spec 30_encoding.md R55). -/
theorem fbHighAddr_toNat (x : BitVec 9) : (fbHighAddr x).toNat = 0x400 + x.toNat := by
  unfold fbHighAddr
  rw [BitVec.toNat_append, ← Nat.shiftLeft_add_eq_or_of_lt x.isLt]
  rfl

@[simp] theorem resolve_fbLowAddr (x : BitVec 9) : resolve (fbLowAddr x) = .framebuffer := by
  have := x.isLt
  rw [resolve_framebuffer_iff, fbLowAddr_toNat]
  omega

@[simp] theorem resolve_fbHighAddr (x : BitVec 9) : resolve (fbHighAddr x) = .framebuffer := by
  have := x.isLt
  rw [resolve_framebuffer_iff, fbHighAddr_toNat]
  omega

/-- A framebuffer address by the number of its cell (spec 10_state.md R21). -/
theorem cellIndex_toNat {a : Address} (h : resolve a = .framebuffer) : (cellIndex a).toNat = a.toNat - 0x200 := by
  rw [resolve_framebuffer_iff] at h
  unfold cellIndex
  rw [BitVec.toNat_setWidth, BitVec.toNat_sub]
  have : hardwareMap.fbBase.toNat = 0x200 := rfl
  rw [this]
  omega

/-- Two framebuffer addresses in the same row and column are the same address (spec 10_state.md R21). -/
theorem cell_inj {a b : Address} (ha : resolve a = .framebuffer) (hb : resolve b = .framebuffer) :
    (cellRow a = cellRow b ∧ cellCol a = cellCol b) ↔ a = b := by
  constructor
  · intro ⟨hr, hc⟩
    have h1 := congrArg BitVec.toNat hr
    have h2 := congrArg BitVec.toNat hc
    simp only [cellRow, cellCol, BitVec.extractLsb'_toNat, Nat.shiftRight_eq_div_pow, cellIndex_toNat ha,
      cellIndex_toNat hb] at h1 h2
    rw [resolve_framebuffer_iff] at ha hb
    apply BitVec.eq_of_toNat_eq
    omega
  · rintro rfl
    exact ⟨rfl, rfl⟩

/-- A cell by address after a write by address (spec 41_bus_write.md R76). -/
theorem cellRead_cellWrite (g : Grid) {a b : Address} (v : Byte) (ha : resolve a = .framebuffer)
    (hb : resolve b = .framebuffer) : cellRead (cellWrite g a v) b = if b = a then v else cellRead g b := by
  unfold cellRead cellWrite
  rw [gridRead_gridWrite]
  simp only [cell_inj ha hb, eq_comm]

@[simp] theorem cellRead_blank (a : Address) : cellRead Grid.blank a = 0x00#8 := gridRead_blank ..

end Sys2Proof.Machine
end

