-- ==== Sys2Proof/Laws/Decode.lean ====
section
/-! SUPPORT. The fields of an assembled word, and the rows' masks as conditions on fields (spec 30_encoding.md R53, R55). -/

namespace Sys2Proof

open Machine

@[simp] theorem opField_opWord (op : BitVec 3) (a : Address) (d : Byte) : opField (opWord op a d) = op := by
  apply BitVec.eq_of_getLsbD_eq
  intro i hi
  simp only [opField, opWord, BitVec.getLsbD_extractLsb', BitVec.getLsbD_append]
  simp [hi, show ¬24 + i < 8 by omega, show ¬24 + i - 8 < 16 by omega, show 24 + i - 8 - 16 = i by omega]

@[simp] theorem addrField_opWord (op : BitVec 3) (a : Address) (d : Byte) : addrField (opWord op a d) = a := by
  apply BitVec.eq_of_getLsbD_eq
  intro i hi
  simp only [addrField, opWord, BitVec.getLsbD_extractLsb', BitVec.getLsbD_append]
  simp [hi]

@[simp] theorem dataField_opWord (op : BitVec 3) (a : Address) (d : Byte) : dataField (opWord op a d) = d := by
  apply BitVec.eq_of_getLsbD_eq
  intro i hi
  simp only [dataField, opWord, BitVec.getLsbD_extractLsb', BitVec.getLsbD_append]
  simp [hi]

/-- A word is its three fields (spec 30_encoding.md R53). -/
theorem opWord_fields (w : OpWord) : opWord (opField w) (addrField w) (dataField w) = w := by
  apply BitVec.eq_of_getLsbD_eq
  intro i hi
  simp only [opWord, opField, addrField, dataField, BitVec.getLsbD_append, BitVec.getLsbD_extractLsb']
  by_cases h1 : i < 8
  · simp [h1]
  · by_cases h2 : i - 8 < 16
    · simp [h1, h2, show 8 + (i - 8) = i by omega]
    · simp [h1, h2, show 24 + (i - 8 - 16) = i by omega, show i - 8 - 16 < 3 by omega]

/-- The number of a word by the numbers of its fields (spec 30_encoding.md R53). -/
theorem opWord_toNat (op : BitVec 3) (a : Address) (d : Byte) :
    (opWord op a d).toNat = op.toNat * 0x1000000 + a.toNat * 0x100 + d.toNat := by
  unfold opWord
  rw [BitVec.toNat_append, ← Nat.shiftLeft_add_eq_or_of_lt d.isLt, BitVec.toNat_append,
    ← Nat.shiftLeft_add_eq_or_of_lt a.isLt, Nat.shiftLeft_eq, Nat.shiftLeft_eq]
  omega

/-- Masking a word masks its fields. -/
theorem opWord_and (o o' : BitVec 3) (a a' : Address) (d d' : Byte) :
    opWord o a d &&& opWord o' a' d' = opWord (o &&& o') (a &&& a') (d &&& d') := by
  apply BitVec.eq_of_getLsbD_eq
  intro i hi
  simp only [opWord, BitVec.getLsbD_and, BitVec.getLsbD_append]
  split
  · rfl
  · split <;> rfl

/-- Two words are equal when their fields are. -/
theorem opWord_inj (o o' : BitVec 3) (a a' : Address) (d d' : Byte) :
    opWord o a d = opWord o' a' d' ↔ o = o' ∧ a = a' ∧ d = d' := by
  constructor
  · intro h
    have h1 := congrArg opField h
    have h2 := congrArg addrField h
    have h3 := congrArg dataField h
    simp only [opField_opWord, addrField_opWord, dataField_opWord] at h1 h2 h3
    exact ⟨h1, h2, h3⟩
  · rintro ⟨rfl, rfl, rfl⟩
    rfl

/-- A row's condition as conditions on the three fields. -/
theorem row_match (w : OpWord) (o m : BitVec 3) (a k : Address) (d b : Byte) :
    w &&& opWord m k b = opWord o a d ↔ opField w &&& m = o ∧ addrField w &&& k = a ∧ dataField w &&& b = d := by
  conv_lhs => rw [← opWord_fields w, opWord_and]
  exact opWord_inj ..

/-- The framebuffer patterns' fixed bits, ADDR[15:9] (spec 30_encoding.md R55). -/
theorem and_fe00 (a : Address) (v : BitVec 7) :
    a &&& 0xFE00#16 = v ++ 0#9 ↔ a.toNat / 512 = v.toNat := by
  have hv : (v ++ 0#9 : BitVec 16).toNat = v.toNat * 512 := by
    rw [BitVec.toNat_append, Nat.shiftLeft_eq]
    simp
  have ha : (a &&& 0xFE00#16) = (a.extractLsb' 9 7 ++ 0#9 : BitVec 16) := by
    apply BitVec.eq_of_getLsbD_eq
    intro i hi
    have : (0xFE00#16).getLsbD i = decide (9 ≤ i) := by
      interval_cases i <;> rfl
    simp only [BitVec.getLsbD_and, this, BitVec.getLsbD_append, BitVec.getLsbD_extractLsb']
    by_cases h : i < 9
    · simp [h]
    · simp [h, show 9 + (i - 9) = i by omega, show i - 9 < 7 by omega, show 9 ≤ i by omega]
  rw [ha, ← BitVec.toNat_inj, hv, BitVec.toNat_append, Nat.shiftLeft_eq, BitVec.extractLsb'_toNat,
    Nat.shiftRight_eq_div_pow]
  have := a.isLt
  simp
  omega

/-- The operation a READ word of address `a` selects (spec 30_encoding.md R55). -/
def readInstr (a : Address) : Instr :=
  if a.toNat = 0xFF then .rdCdat
  else if a.toNat = 0xFE then .rdCrdy
  else if a.toNat / 512 = 1 then .rdFbLow (a.extractLsb' 0 9)
  else if a.toNat / 512 = 2 then .rdFbHigh (a.extractLsb' 0 9)
  else .rdRam a

/-- The operation a WRITE word of address `a` and byte `v` selects (spec 30_encoding.md R55). -/
def writeInstr (a : Address) (v : Byte) : Instr :=
  if a.toNat = 0xFF then .wrCdat v
  else if a.toNat = 0xFE then .wrCrdy v
  else if a.toNat / 512 = 1 then .wrFbLow (a.extractLsb' 0 9) v
  else if a.toNat / 512 = 2 then .wrFbHigh (a.extractLsb' 0 9) v
  else .wrRam a v

theorem fbField_opWord (op : BitVec 3) (a : Address) (d : Byte) : fbField (opWord op a d) = a.extractLsb' 0 9 := by
  conv_rhs => rw [← addrField_opWord op a d]
  apply BitVec.eq_of_getLsbD_eq
  intro i hi
  simp only [fbField, addrField, BitVec.getLsbD_extractLsb']
  simp [hi, show i < 16 by omega]

theorem and_fe00_low (a : Address) : a &&& 0xFE00#16 = 0x0200#16 ↔ a.toNat / 512 = 1 := and_fe00 a 1

theorem and_fe00_high (a : Address) : a &&& 0xFE00#16 = 0x0400#16 ↔ a.toNat / 512 = 2 := and_fe00 a 2

theorem and_full (a : Address) : a &&& 0xFFFF#16 = a := BitVec.and_allOnes

/-- A row that fixes OP and all of ADDR. -/
theorem row_addr (w : OpWord) (o : BitVec 3) (a : Address) :
    w &&& opWord 7#3 0xFFFF#16 0#8 = opWord o a 0#8 ↔ opField w = o ∧ (addrField w).toNat = a.toNat := by
  rw [row_match, and_full, BitVec.and_zero, show opField w &&& 7#3 = opField w from BitVec.and_allOnes, BitVec.toNat_inj]
  simp

theorem row_low (w : OpWord) (o : BitVec 3) :
    w &&& opWord 7#3 0xFE00#16 0#8 = opWord o 0x0200#16 0#8 ↔ opField w = o ∧ (addrField w).toNat / 512 = 1 := by
  rw [row_match, and_fe00_low, BitVec.and_zero, show opField w &&& 7#3 = opField w from BitVec.and_allOnes]
  simp

theorem row_high (w : OpWord) (o : BitVec 3) :
    w &&& opWord 7#3 0xFE00#16 0#8 = opWord o 0x0400#16 0#8 ↔ opField w = o ∧ (addrField w).toNat / 512 = 2 := by
  rw [row_match, and_fe00_high, BitVec.and_zero, show opField w &&& 7#3 = opField w from BitVec.and_allOnes]
  simp

theorem row_op (w : OpWord) (o : BitVec 3) : w &&& opWord 7#3 0#16 0#8 = opWord o 0#16 0#8 ↔ opField w = o := by
  rw [row_match, BitVec.and_zero, BitVec.and_zero, show opField w &&& 7#3 = opField w from BitVec.and_allOnes]
  simp

theorem row_whole (w : OpWord) (o : BitVec 3) :
    w &&& opWord 7#3 0xFFFF#16 0xFF#8 = opWord o 0#16 0#8 ↔ opField w = o ∧ addrField w = 0#16 ∧ dataField w = 0#8 := by
  rw [row_match, and_full, show opField w &&& 7#3 = opField w from BitVec.and_allOnes,
    show dataField w &&& 0xFF#8 = dataField w from BitVec.and_allOnes]

/-- The rows with their words written as fields (30_encoding.md R55). -/
theorem decodeRows_fields : decodeRows =
    [ ⟨opWord 0 0x00FF#16 0, opWord 7 0xFFFF#16 0, fun _ => .rdCdat⟩,
      ⟨opWord 1 0x00FF#16 0, opWord 7 0xFFFF#16 0, fun w => .wrCdat (dataField w)⟩,
      ⟨opWord 0 0x00FE#16 0, opWord 7 0xFFFF#16 0, fun _ => .rdCrdy⟩,
      ⟨opWord 1 0x00FE#16 0, opWord 7 0xFFFF#16 0, fun w => .wrCrdy (dataField w)⟩,
      ⟨opWord 0 0x0200#16 0, opWord 7 0xFE00#16 0, fun w => .rdFbLow (fbField w)⟩,
      ⟨opWord 0 0x0400#16 0, opWord 7 0xFE00#16 0, fun w => .rdFbHigh (fbField w)⟩,
      ⟨opWord 1 0x0200#16 0, opWord 7 0xFE00#16 0, fun w => .wrFbLow (fbField w) (dataField w)⟩,
      ⟨opWord 1 0x0400#16 0, opWord 7 0xFE00#16 0, fun w => .wrFbHigh (fbField w) (dataField w)⟩,
      ⟨opWord 0 0 0, opWord 7 0 0, fun w => .rdRam (addrField w)⟩,
      ⟨opWord 1 0 0, opWord 7 0 0, fun w => .wrRam (addrField w) (dataField w)⟩,
      ⟨opWord 2 0 0, opWord 7 0xFFFF#16 0xFF#8, fun _ => .drain⟩,
      ⟨opWord 3 0 0, opWord 7 0xFFFF#16 0xFF#8, fun _ => .frame⟩,
      ⟨opWord 4 0 0, opWord 7 0xFFFF#16 0xFF#8, fun _ => .clear⟩,
      ⟨opWord 5 0 0, opWord 7 0xFFFF#16 0xFF#8, fun _ => .reset⟩ ] := rfl

theorem fbField_eq (w : OpWord) : fbField w = (addrField w).extractLsb' 0 9 := by
  conv_lhs => rw [← opWord_fields w, fbField_opWord]

/-- The row a word selects, by its fields (30_encoding.md R55, R56). -/
theorem firstRow_fields (w : OpWord) : firstRow w decodeRows =
    if opField w = 0 then some (readInstr (addrField w))
    else if opField w = 1 then some (writeInstr (addrField w) (dataField w))
    else if addrField w = 0 ∧ dataField w = 0 then
      if opField w = 2 then some .drain else if opField w = 3 then some .frame
      else if opField w = 4 then some .clear else if opField w = 5 then some .reset else none
    else none := by
  rw [decodeRows_fields]
  simp only [firstRow]
  simp only [BitVec.ofNat_eq_ofNat, row_addr, row_low, row_high, row_op, row_whole, fbField_eq, readInstr, writeInstr]
  by_cases h0 : opField w = 0#3
  · simp only [h0, true_and, if_true]
    simp only [show ¬ (0#3 = 1#3) by decide, show (0x00FF#16).toNat = 0xFF from rfl, show (0x00FE#16).toNat = 0xFE from rfl]
    split_ifs <;> simp_all
  by_cases h1 : opField w = 1#3
  · simp only [h1, true_and, if_true]
    simp only [show ¬ (1#3 = 0#3) by decide, show (0x00FF#16).toNat = 0xFF from rfl, show (0x00FE#16).toNat = 0xFE from rfl]
    split_ifs <;> simp_all
  · simp only [h0, h1, false_and, if_false]
    split_ifs <;> simp_all

/-- What the decoder answers, by the word's fields (spec 30_encoding.md R55, R56, R60). -/
theorem decode_fields (w : OpWord) : decode w =
    if opField w = 0 then .ok (readInstr (addrField w))
    else if opField w = 1 then .ok (writeInstr (addrField w) (dataField w))
    else if opField w = 6 ∨ opField w = 7 then .error .reservedOpcode
    else if addrField w = 0 ∧ dataField w = 0 then
      .ok (if opField w = 2 then .drain else if opField w = 3 then .frame
        else if opField w = 4 then .clear else .reset)
    else .error .nonzeroOperand := by
  unfold decode reservedCheck
  rw [firstRow_fields]
  have hop : opField w = 0 ∨ opField w = 1 ∨ opField w = 2 ∨ opField w = 3 ∨ opField w = 4 ∨ opField w = 5
      ∨ opField w = 6 ∨ opField w = 7 := by
    generalize opField w = o
    revert o
    decide
  by_cases hz : addrField w = 0#16 ∧ dataField w = 0#8
  · rcases hop with h | h | h | h | h | h | h | h <;> rw [h] <;> simp [hz]
  · have hz' : addrField w ≠ 0#16 ∨ dataField w ≠ 0#8 := by
      rcases Classical.em (addrField w = 0#16) with h | h
      · exact .inr fun h' => hz ⟨h, h'⟩
      · exact .inl h
    rcases hop with h | h | h | h | h | h | h | h <;> rw [h] <;> simp [hz, hz']

/-- A READ word, whatever its DATA (spec 30_encoding.md R55, R59). -/
theorem decode_read (a : Address) (d : Byte) : decode (opWord 0b000#3 a d) = .ok (readInstr a) := by
  simp [decode_fields]

/-- A WRITE word (spec 30_encoding.md R55). -/
theorem decode_write (a : Address) (v : Byte) : decode (opWord 0b001#3 a v) = .ok (writeInstr a v) := by
  simp [decode_fields]

@[simp] theorem decode_drain : decode (encode .drain) = .ok .drain := by decide

end Sys2Proof
end

