-- ==== Sys2Proof/Laws/Memory.lean ====
section
/-! SUPPORT. RAM as a canonical list: every write keeps the form, a read after a write, and equal reads mean equal lists. -/

namespace Sys2Proof.Machine

open Sys2Proof

@[simp] theorem wfFrom_nil (lo : Nat) : Memory.wfFrom lo [] = true := rfl

@[simp] theorem wfFrom_cons (lo k : Nat) (w : Byte) (m : Memory) :
    Memory.wfFrom lo ((k, w) :: m) = true ↔ lo ≤ k ∧ w ≠ unlistedByte ∧ Memory.wfFrom (k + 1) m = true := by
  simp [Memory.wfFrom, and_assoc]

@[simp] theorem ramRead_nil (a : Nat) : ramRead [] a = unlistedByte := rfl

theorem ramRead_cons (k : Nat) (w : Byte) (m : Memory) (a : Nat) :
    ramRead ((k, w) :: m) a = if k = a then w else ramRead m a := rfl

theorem wfFrom_mono {lo lo' : Nat} {m : Memory} (h : lo ≤ lo') (hm : Memory.wfFrom lo' m = true) :
    Memory.wfFrom lo m = true := by
  cases m with
  | nil => rfl
  | cons c m =>
    obtain ⟨k, w⟩ := c
    rw [wfFrom_cons] at hm ⊢
    exact ⟨by omega, hm.2⟩

/-- Below the first listed address nothing is listed. -/
theorem ramRead_below {lo a : Nat} {m : Memory} (hm : Memory.wfFrom lo m = true) (h : a < lo) :
    ramRead m a = unlistedByte := by
  induction m generalizing lo with
  | nil => rfl
  | cons c m ih =>
    obtain ⟨k, w⟩ := c
    rw [wfFrom_cons] at hm
    rw [ramRead_cons, if_neg (by omega), ih hm.2.2 (by omega)]

theorem consCell_wfFrom {lo a : Nat} {v : Byte} {m : Memory} (hl : lo ≤ a) (hm : Memory.wfFrom (a + 1) m = true) :
    Memory.wfFrom lo (consCell a v m) = true := by
  unfold consCell
  split
  · exact wfFrom_mono (by omega) hm
  · exact (wfFrom_cons ..).2 ⟨hl, ‹_›, hm⟩

theorem ramRead_consCell {a : Nat} {v : Byte} {m : Memory} (hm : Memory.wfFrom (a + 1) m = true) (b : Nat) :
    ramRead (consCell a v m) b = if a = b then v else ramRead m b := by
  unfold consCell
  split
  · rename_i hv
    split
    · subst hv
      exact ramRead_below hm (by omega)
    · rfl
  · rfl

theorem ramWrite_wfFrom {lo a : Nat} (v : Byte) {m : Memory} (hl : lo ≤ a) (hm : Memory.wfFrom lo m = true) :
    Memory.wfFrom lo (ramWrite m a v) = true := by
  induction m generalizing lo with
  | nil => exact consCell_wfFrom hl rfl
  | cons c m ih =>
    obtain ⟨k, w⟩ := c
    rw [wfFrom_cons] at hm
    unfold ramWrite
    split
    · exact consCell_wfFrom hl ((wfFrom_cons ..).2 ⟨by omega, hm.2⟩)
    · split
      · exact consCell_wfFrom hl (by subst_vars; exact hm.2.2)
      · exact (wfFrom_cons ..).2 ⟨hm.1, hm.2.1, ih (by omega) hm.2.2⟩

/-- Every write keeps the canonical form. -/
theorem ramWrite_wf (a : Nat) (v : Byte) {m : Memory} (hm : m.wf = true) : Memory.wf (ramWrite m a v) = true :=
  ramWrite_wfFrom v (Nat.zero_le a) hm

theorem ramRead_ramWrite_from {lo : Nat} (a : Nat) (v : Byte) {m : Memory} (hm : Memory.wfFrom lo m = true) (b : Nat) :
    ramRead (ramWrite m a v) b = if a = b then v else ramRead m b := by
  induction m generalizing lo with
  | nil => exact ramRead_consCell rfl b
  | cons c m ih =>
    obtain ⟨k, w⟩ := c
    rw [wfFrom_cons] at hm
    unfold ramWrite
    split
    · exact ramRead_consCell ((wfFrom_cons ..).2 ⟨by omega, hm.2⟩) b
    · split
      · subst_vars
        rw [ramRead_consCell hm.2.2, ramRead_cons]
        split <;> rfl
      · rw [ramRead_cons, ih hm.2.2, ramRead_cons]
        split
        · rw [if_neg (by omega)]
        · rfl

/-- A read after a write: the byte written at that address, and every other byte as before. -/
theorem ramRead_ramWrite (a : Nat) (v : Byte) {m : Memory} (hm : m.wf = true) (b : Nat) :
    ramRead (ramWrite m a v) b = if a = b then v else ramRead m b :=
  ramRead_ramWrite_from a v hm b

/-- A listed cell of a canonical list is what its address reads as. -/
theorem ramRead_of_mem {lo : Nat} {m : Memory} (hm : Memory.wfFrom lo m = true) {k : Nat} {w : Byte} (h : (k, w) ∈ m) :
    lo ≤ k ∧ w ≠ unlistedByte ∧ ramRead m k = w := by
  induction m generalizing lo with
  | nil => cases h
  | cons c m ih =>
    obtain ⟨k', w'⟩ := c
    rw [wfFrom_cons] at hm
    rw [ramRead_cons]
    rcases List.mem_cons.1 h with h | h
    · cases h
      exact ⟨hm.1, hm.2.1, if_pos rfl⟩
    · obtain ⟨h1, h2, h3⟩ := ih hm.2.2 h
      exact ⟨by omega, h2, by rw [if_neg (by omega), h3]⟩

/-- Which cells a write can leave listed. -/
theorem mem_ramWrite {m : Memory} {a k : Nat} {v w : Byte} (h : (k, w) ∈ ramWrite m a v) : k = a ∨ (k, w) ∈ m := by
  have hc : ∀ m' : Memory, (k, w) ∈ consCell a v m' → k = a ∨ (k, w) ∈ m' := by
    intro m' h'
    unfold consCell at h'
    split at h'
    · exact .inr h'
    · rcases List.mem_cons.1 h' with h' | h'
      · cases h'; exact .inl rfl
      · exact .inr h'
  induction m with
  | nil => exact hc _ h
  | cons c m ih =>
    obtain ⟨k', w'⟩ := c
    unfold ramWrite at h
    split at h
    · exact hc _ h
    · split at h
      · rcases hc _ h with h | h
        · exact .inl h
        · exact .inr (List.mem_cons_of_mem _ h)
      · rcases List.mem_cons.1 h with h | h
        · cases h; exact .inr (List.mem_cons_self ..)
        · rcases ih h with h | h
          · exact .inl h
          · exact .inr (List.mem_cons_of_mem _ h)

/-- A write at an address that resolves to RAM lists no device address. -/
theorem ramWrite_onlyRam {m : Memory} {a : Address} (v : Byte) (ha : resolve a = .ram) (hm : m.onlyRam = true) :
    Memory.onlyRam (ramWrite m a.toNat v) = true := by
  simp only [Memory.onlyRam, List.all_eq_true] at hm ⊢
  intro c hc
  obtain ⟨k, w⟩ := c
  rcases mem_ramWrite hc with rfl | h
  · simp [ha, a.isLt]
  · exact hm _ h

/-- The canonical form is canonical: lists that read alike are equal. -/
theorem wfFrom_ext {lo : Nat} {m n : Memory} (hm : Memory.wfFrom lo m = true) (hn : Memory.wfFrom lo n = true)
    (h : ∀ a, ramRead m a = ramRead n a) : m = n := by
  induction m generalizing lo n with
  | nil =>
    cases n with
    | nil => rfl
    | cons d n =>
      obtain ⟨k, w⟩ := d
      have h' := h k
      rw [wfFrom_cons] at hn
      rw [ramRead_cons, if_pos rfl] at h'
      exact absurd h'.symm hn.2.1
  | cons c m ih =>
    obtain ⟨j, v⟩ := c
    have hm' := (wfFrom_cons ..).1 hm
    cases n with
    | nil =>
      have h' := h j
      rw [ramRead_cons, if_pos rfl] at h'
      exact absurd h' hm'.2.1
    | cons d n =>
      obtain ⟨k, w⟩ := d
      have hn' := (wfFrom_cons ..).1 hn
      have hjk : j = k := by
        have hj := h j
        have hk := h k
        rw [ramRead_cons, if_pos rfl, ramRead_cons] at hj
        rw [ramRead_cons, ramRead_cons (a := k), if_pos rfl] at hk
        rcases Nat.lt_trichotomy j k with hlt | heq | hlt
        · rw [if_neg (by omega), ramRead_below hn'.2.2 (by omega)] at hj
          exact absurd hj hm'.2.1
        · exact heq
        · rw [if_neg (by omega), ramRead_below hm'.2.2 (by omega)] at hk
          exact absurd hk.symm hn'.2.1
      subst hjk
      have hv : v = w := by simpa [ramRead_cons] using h j
      subst hv
      rw [ih hm'.2.2 hn'.2.2]
      intro a
      rcases Nat.lt_or_ge a (j + 1) with ha | ha
      · rw [ramRead_below hm'.2.2 ha, ramRead_below hn'.2.2 ha]
      · simpa [ramRead_cons, show j ≠ a by omega] using h a

end Sys2Proof.Machine
end

