-- ==== Sys2Proof/Laws/State.lean ====
section
/-! SUPPORT. What each named update of the state leaves in each field. -/

namespace Sys2Proof.Machine

open Sys2Proof

/-! `State.quiet` -/

@[simp] theorem State.quiet_block (s : State) : (s.quiet).block = s.block := rfl
@[simp] theorem State.quiet_ports (s : State) : (s.quiet).ports = { rdata := none, console := none, frame := none } := rfl
@[simp] theorem State.quiet_spin (s : State) : (s.quiet).spin = s.spin := rfl
@[simp] theorem State.quiet_params (s : State) : (s.quiet).params = s.params := rfl
@[simp] theorem State.quiet_script (s : State) : (s.quiet).script = s.script := rfl
@[simp] theorem State.quiet_loop (s : State) : (s.quiet).loop = s.loop := rfl
@[simp] theorem State.quiet_names (s : State) : (s.quiet).names = s.names := rfl
@[simp] theorem State.quiet_waiting (s : State) : (s.quiet).waiting = s.waiting := rfl
@[simp] theorem State.quiet_order (s : State) : (s.quiet).order = s.order := rfl
@[simp] theorem State.quiet_tick (s : State) : (s.quiet).tick = s.tick := rfl
@[simp] theorem State.quiet_turns (s : State) : (s.quiet).turns = s.turns := rfl
@[simp] theorem State.quiet_yielded (s : State) : (s.quiet).yielded = s.yielded := rfl
@[simp] theorem State.quiet_hung (s : State) : (s.quiet).hung = s.hung := rfl

/-! `State.driveRdata` -/

@[simp] theorem State.driveRdata_block (s : State) (v : Byte) : (s.driveRdata v).block = s.block := rfl
@[simp] theorem State.driveRdata_ports (s : State) (v : Byte) : (s.driveRdata v).ports = { rdata := some v, console := none, frame := none } := rfl
@[simp] theorem State.driveRdata_spin (s : State) (v : Byte) : (s.driveRdata v).spin = s.spin := rfl
@[simp] theorem State.driveRdata_params (s : State) (v : Byte) : (s.driveRdata v).params = s.params := rfl
@[simp] theorem State.driveRdata_script (s : State) (v : Byte) : (s.driveRdata v).script = s.script := rfl
@[simp] theorem State.driveRdata_loop (s : State) (v : Byte) : (s.driveRdata v).loop = s.loop := rfl
@[simp] theorem State.driveRdata_names (s : State) (v : Byte) : (s.driveRdata v).names = s.names := rfl
@[simp] theorem State.driveRdata_waiting (s : State) (v : Byte) : (s.driveRdata v).waiting = s.waiting := rfl
@[simp] theorem State.driveRdata_order (s : State) (v : Byte) : (s.driveRdata v).order = s.order := rfl
@[simp] theorem State.driveRdata_tick (s : State) (v : Byte) : (s.driveRdata v).tick = s.tick := rfl
@[simp] theorem State.driveRdata_turns (s : State) (v : Byte) : (s.driveRdata v).turns = s.turns := rfl
@[simp] theorem State.driveRdata_yielded (s : State) (v : Byte) : (s.driveRdata v).yielded = s.yielded := rfl
@[simp] theorem State.driveRdata_hung (s : State) (v : Byte) : (s.driveRdata v).hung = s.hung := rfl

/-! `State.driveConsole` -/

@[simp] theorem State.driveConsole_block (s : State) (v : Byte) : (s.driveConsole v).block = s.block := rfl
@[simp] theorem State.driveConsole_ports (s : State) (v : Byte) : (s.driveConsole v).ports = { rdata := none, console := some v, frame := none } := rfl
@[simp] theorem State.driveConsole_spin (s : State) (v : Byte) : (s.driveConsole v).spin = s.spin := rfl
@[simp] theorem State.driveConsole_params (s : State) (v : Byte) : (s.driveConsole v).params = s.params := rfl
@[simp] theorem State.driveConsole_script (s : State) (v : Byte) : (s.driveConsole v).script = s.script := rfl
@[simp] theorem State.driveConsole_loop (s : State) (v : Byte) : (s.driveConsole v).loop = s.loop := rfl
@[simp] theorem State.driveConsole_names (s : State) (v : Byte) : (s.driveConsole v).names = s.names := rfl
@[simp] theorem State.driveConsole_waiting (s : State) (v : Byte) : (s.driveConsole v).waiting = s.waiting := rfl
@[simp] theorem State.driveConsole_order (s : State) (v : Byte) : (s.driveConsole v).order = s.order := rfl
@[simp] theorem State.driveConsole_tick (s : State) (v : Byte) : (s.driveConsole v).tick = s.tick := rfl
@[simp] theorem State.driveConsole_turns (s : State) (v : Byte) : (s.driveConsole v).turns = s.turns := rfl
@[simp] theorem State.driveConsole_yielded (s : State) (v : Byte) : (s.driveConsole v).yielded = s.yielded := rfl
@[simp] theorem State.driveConsole_hung (s : State) (v : Byte) : (s.driveConsole v).hung = s.hung := rfl

/-! `State.driveFrame` -/

@[simp] theorem State.driveFrame_block (s : State) (g : Grid) : (s.driveFrame g).block = s.block := rfl
@[simp] theorem State.driveFrame_ports (s : State) (g : Grid) : (s.driveFrame g).ports = { rdata := none, console := none, frame := some g } := rfl
@[simp] theorem State.driveFrame_spin (s : State) (g : Grid) : (s.driveFrame g).spin = s.spin := rfl
@[simp] theorem State.driveFrame_params (s : State) (g : Grid) : (s.driveFrame g).params = s.params := rfl
@[simp] theorem State.driveFrame_script (s : State) (g : Grid) : (s.driveFrame g).script = s.script := rfl
@[simp] theorem State.driveFrame_loop (s : State) (g : Grid) : (s.driveFrame g).loop = s.loop := rfl
@[simp] theorem State.driveFrame_names (s : State) (g : Grid) : (s.driveFrame g).names = s.names := rfl
@[simp] theorem State.driveFrame_waiting (s : State) (g : Grid) : (s.driveFrame g).waiting = s.waiting := rfl
@[simp] theorem State.driveFrame_order (s : State) (g : Grid) : (s.driveFrame g).order = s.order := rfl
@[simp] theorem State.driveFrame_tick (s : State) (g : Grid) : (s.driveFrame g).tick = s.tick := rfl
@[simp] theorem State.driveFrame_turns (s : State) (g : Grid) : (s.driveFrame g).turns = s.turns := rfl
@[simp] theorem State.driveFrame_yielded (s : State) (g : Grid) : (s.driveFrame g).yielded = s.yielded := rfl
@[simp] theorem State.driveFrame_hung (s : State) (g : Grid) : (s.driveFrame g).hung = s.hung := rfl

/-! `State.setData` -/

@[simp] theorem State.setData_ram (s : State) (v : Byte) : (s.setData v).block.ram = s.block.ram := rfl
@[simp] theorem State.setData_data (s : State) (v : Byte) : (s.setData v).block.data = v := rfl
@[simp] theorem State.setData_flag (s : State) (v : Byte) : (s.setData v).block.flag = s.block.flag := rfl
@[simp] theorem State.setData_fb (s : State) (v : Byte) : (s.setData v).block.fb = s.block.fb := rfl
@[simp] theorem State.setData_out (s : State) (v : Byte) : (s.setData v).block.out = s.block.out := rfl
@[simp] theorem State.setData_ports (s : State) (v : Byte) : (s.setData v).ports = s.ports := rfl
@[simp] theorem State.setData_spin (s : State) (v : Byte) : (s.setData v).spin = s.spin := rfl
@[simp] theorem State.setData_params (s : State) (v : Byte) : (s.setData v).params = s.params := rfl
@[simp] theorem State.setData_script (s : State) (v : Byte) : (s.setData v).script = s.script := rfl
@[simp] theorem State.setData_loop (s : State) (v : Byte) : (s.setData v).loop = s.loop := rfl
@[simp] theorem State.setData_names (s : State) (v : Byte) : (s.setData v).names = s.names := rfl
@[simp] theorem State.setData_waiting (s : State) (v : Byte) : (s.setData v).waiting = s.waiting := rfl
@[simp] theorem State.setData_order (s : State) (v : Byte) : (s.setData v).order = s.order := rfl
@[simp] theorem State.setData_tick (s : State) (v : Byte) : (s.setData v).tick = s.tick := rfl
@[simp] theorem State.setData_turns (s : State) (v : Byte) : (s.setData v).turns = s.turns := rfl
@[simp] theorem State.setData_yielded (s : State) (v : Byte) : (s.setData v).yielded = s.yielded := rfl
@[simp] theorem State.setData_hung (s : State) (v : Byte) : (s.setData v).hung = s.hung := rfl

/-! `State.setFlag` -/

@[simp] theorem State.setFlag_ram (s : State) (v : Byte) : (s.setFlag v).block.ram = s.block.ram := rfl
@[simp] theorem State.setFlag_data (s : State) (v : Byte) : (s.setFlag v).block.data = s.block.data := rfl
@[simp] theorem State.setFlag_flag (s : State) (v : Byte) : (s.setFlag v).block.flag = v := rfl
@[simp] theorem State.setFlag_fb (s : State) (v : Byte) : (s.setFlag v).block.fb = s.block.fb := rfl
@[simp] theorem State.setFlag_out (s : State) (v : Byte) : (s.setFlag v).block.out = s.block.out := rfl
@[simp] theorem State.setFlag_ports (s : State) (v : Byte) : (s.setFlag v).ports = s.ports := rfl
@[simp] theorem State.setFlag_spin (s : State) (v : Byte) : (s.setFlag v).spin = s.spin := rfl
@[simp] theorem State.setFlag_params (s : State) (v : Byte) : (s.setFlag v).params = s.params := rfl
@[simp] theorem State.setFlag_script (s : State) (v : Byte) : (s.setFlag v).script = s.script := rfl
@[simp] theorem State.setFlag_loop (s : State) (v : Byte) : (s.setFlag v).loop = s.loop := rfl
@[simp] theorem State.setFlag_names (s : State) (v : Byte) : (s.setFlag v).names = s.names := rfl
@[simp] theorem State.setFlag_waiting (s : State) (v : Byte) : (s.setFlag v).waiting = s.waiting := rfl
@[simp] theorem State.setFlag_order (s : State) (v : Byte) : (s.setFlag v).order = s.order := rfl
@[simp] theorem State.setFlag_tick (s : State) (v : Byte) : (s.setFlag v).tick = s.tick := rfl
@[simp] theorem State.setFlag_turns (s : State) (v : Byte) : (s.setFlag v).turns = s.turns := rfl
@[simp] theorem State.setFlag_yielded (s : State) (v : Byte) : (s.setFlag v).yielded = s.yielded := rfl
@[simp] theorem State.setFlag_hung (s : State) (v : Byte) : (s.setFlag v).hung = s.hung := rfl

/-! `State.setRam` -/

@[simp] theorem State.setRam_ram (s : State) (a : Address) (v : Byte) : (s.setRam a v).block.ram = ramWrite s.block.ram a.toNat v := rfl
@[simp] theorem State.setRam_data (s : State) (a : Address) (v : Byte) : (s.setRam a v).block.data = s.block.data := rfl
@[simp] theorem State.setRam_flag (s : State) (a : Address) (v : Byte) : (s.setRam a v).block.flag = s.block.flag := rfl
@[simp] theorem State.setRam_fb (s : State) (a : Address) (v : Byte) : (s.setRam a v).block.fb = s.block.fb := rfl
@[simp] theorem State.setRam_out (s : State) (a : Address) (v : Byte) : (s.setRam a v).block.out = s.block.out := rfl
@[simp] theorem State.setRam_ports (s : State) (a : Address) (v : Byte) : (s.setRam a v).ports = s.ports := rfl
@[simp] theorem State.setRam_spin (s : State) (a : Address) (v : Byte) : (s.setRam a v).spin = s.spin := rfl
@[simp] theorem State.setRam_params (s : State) (a : Address) (v : Byte) : (s.setRam a v).params = s.params := rfl
@[simp] theorem State.setRam_script (s : State) (a : Address) (v : Byte) : (s.setRam a v).script = s.script := rfl
@[simp] theorem State.setRam_loop (s : State) (a : Address) (v : Byte) : (s.setRam a v).loop = s.loop := rfl
@[simp] theorem State.setRam_names (s : State) (a : Address) (v : Byte) : (s.setRam a v).names = s.names := rfl
@[simp] theorem State.setRam_waiting (s : State) (a : Address) (v : Byte) : (s.setRam a v).waiting = s.waiting := rfl
@[simp] theorem State.setRam_order (s : State) (a : Address) (v : Byte) : (s.setRam a v).order = s.order := rfl
@[simp] theorem State.setRam_tick (s : State) (a : Address) (v : Byte) : (s.setRam a v).tick = s.tick := rfl
@[simp] theorem State.setRam_turns (s : State) (a : Address) (v : Byte) : (s.setRam a v).turns = s.turns := rfl
@[simp] theorem State.setRam_yielded (s : State) (a : Address) (v : Byte) : (s.setRam a v).yielded = s.yielded := rfl
@[simp] theorem State.setRam_hung (s : State) (a : Address) (v : Byte) : (s.setRam a v).hung = s.hung := rfl

/-! `State.setCell` -/

@[simp] theorem State.setCell_ram (s : State) (a : Address) (v : Byte) : (s.setCell a v).block.ram = s.block.ram := rfl
@[simp] theorem State.setCell_data (s : State) (a : Address) (v : Byte) : (s.setCell a v).block.data = s.block.data := rfl
@[simp] theorem State.setCell_flag (s : State) (a : Address) (v : Byte) : (s.setCell a v).block.flag = s.block.flag := rfl
@[simp] theorem State.setCell_fb (s : State) (a : Address) (v : Byte) : (s.setCell a v).block.fb = cellWrite s.block.fb a v := rfl
@[simp] theorem State.setCell_out (s : State) (a : Address) (v : Byte) : (s.setCell a v).block.out = s.block.out := rfl
@[simp] theorem State.setCell_ports (s : State) (a : Address) (v : Byte) : (s.setCell a v).ports = s.ports := rfl
@[simp] theorem State.setCell_spin (s : State) (a : Address) (v : Byte) : (s.setCell a v).spin = s.spin := rfl
@[simp] theorem State.setCell_params (s : State) (a : Address) (v : Byte) : (s.setCell a v).params = s.params := rfl
@[simp] theorem State.setCell_script (s : State) (a : Address) (v : Byte) : (s.setCell a v).script = s.script := rfl
@[simp] theorem State.setCell_loop (s : State) (a : Address) (v : Byte) : (s.setCell a v).loop = s.loop := rfl
@[simp] theorem State.setCell_names (s : State) (a : Address) (v : Byte) : (s.setCell a v).names = s.names := rfl
@[simp] theorem State.setCell_waiting (s : State) (a : Address) (v : Byte) : (s.setCell a v).waiting = s.waiting := rfl
@[simp] theorem State.setCell_order (s : State) (a : Address) (v : Byte) : (s.setCell a v).order = s.order := rfl
@[simp] theorem State.setCell_tick (s : State) (a : Address) (v : Byte) : (s.setCell a v).tick = s.tick := rfl
@[simp] theorem State.setCell_turns (s : State) (a : Address) (v : Byte) : (s.setCell a v).turns = s.turns := rfl
@[simp] theorem State.setCell_yielded (s : State) (a : Address) (v : Byte) : (s.setCell a v).yielded = s.yielded := rfl
@[simp] theorem State.setCell_hung (s : State) (a : Address) (v : Byte) : (s.setCell a v).hung = s.hung := rfl

/-! `State.setGrid` -/

@[simp] theorem State.setGrid_ram (s : State) (g : Grid) : (s.setGrid g).block.ram = s.block.ram := rfl
@[simp] theorem State.setGrid_data (s : State) (g : Grid) : (s.setGrid g).block.data = s.block.data := rfl
@[simp] theorem State.setGrid_flag (s : State) (g : Grid) : (s.setGrid g).block.flag = s.block.flag := rfl
@[simp] theorem State.setGrid_fb (s : State) (g : Grid) : (s.setGrid g).block.fb = g := rfl
@[simp] theorem State.setGrid_out (s : State) (g : Grid) : (s.setGrid g).block.out = s.block.out := rfl
@[simp] theorem State.setGrid_ports (s : State) (g : Grid) : (s.setGrid g).ports = s.ports := rfl
@[simp] theorem State.setGrid_spin (s : State) (g : Grid) : (s.setGrid g).spin = s.spin := rfl
@[simp] theorem State.setGrid_params (s : State) (g : Grid) : (s.setGrid g).params = s.params := rfl
@[simp] theorem State.setGrid_script (s : State) (g : Grid) : (s.setGrid g).script = s.script := rfl
@[simp] theorem State.setGrid_loop (s : State) (g : Grid) : (s.setGrid g).loop = s.loop := rfl
@[simp] theorem State.setGrid_names (s : State) (g : Grid) : (s.setGrid g).names = s.names := rfl
@[simp] theorem State.setGrid_waiting (s : State) (g : Grid) : (s.setGrid g).waiting = s.waiting := rfl
@[simp] theorem State.setGrid_order (s : State) (g : Grid) : (s.setGrid g).order = s.order := rfl
@[simp] theorem State.setGrid_tick (s : State) (g : Grid) : (s.setGrid g).tick = s.tick := rfl
@[simp] theorem State.setGrid_turns (s : State) (g : Grid) : (s.setGrid g).turns = s.turns := rfl
@[simp] theorem State.setGrid_yielded (s : State) (g : Grid) : (s.setGrid g).yielded = s.yielded := rfl
@[simp] theorem State.setGrid_hung (s : State) (g : Grid) : (s.setGrid g).hung = s.hung := rfl

/-! `State.emit` -/

@[simp] theorem State.emit_ram (s : State) (v : Byte) : (s.emit v).block.ram = s.block.ram := rfl
@[simp] theorem State.emit_data (s : State) (v : Byte) : (s.emit v).block.data = s.block.data := rfl
@[simp] theorem State.emit_flag (s : State) (v : Byte) : (s.emit v).block.flag = s.block.flag := rfl
@[simp] theorem State.emit_fb (s : State) (v : Byte) : (s.emit v).block.fb = s.block.fb := rfl
@[simp] theorem State.emit_out (s : State) (v : Byte) : (s.emit v).block.out = s.block.out ++ [v] := rfl
@[simp] theorem State.emit_ports (s : State) (v : Byte) : (s.emit v).ports = s.ports := rfl
@[simp] theorem State.emit_spin (s : State) (v : Byte) : (s.emit v).spin = s.spin := rfl
@[simp] theorem State.emit_params (s : State) (v : Byte) : (s.emit v).params = s.params := rfl
@[simp] theorem State.emit_script (s : State) (v : Byte) : (s.emit v).script = s.script := rfl
@[simp] theorem State.emit_loop (s : State) (v : Byte) : (s.emit v).loop = s.loop := rfl
@[simp] theorem State.emit_names (s : State) (v : Byte) : (s.emit v).names = s.names := rfl
@[simp] theorem State.emit_waiting (s : State) (v : Byte) : (s.emit v).waiting = s.waiting := rfl
@[simp] theorem State.emit_order (s : State) (v : Byte) : (s.emit v).order = s.order := rfl
@[simp] theorem State.emit_tick (s : State) (v : Byte) : (s.emit v).tick = s.tick := rfl
@[simp] theorem State.emit_turns (s : State) (v : Byte) : (s.emit v).turns = s.turns := rfl
@[simp] theorem State.emit_yielded (s : State) (v : Byte) : (s.emit v).yielded = s.yielded := rfl
@[simp] theorem State.emit_hung (s : State) (v : Byte) : (s.emit v).hung = s.hung := rfl

/-! `State.abort` -/

@[simp] theorem State.abort_block (s : State) : (s.abort).block = s.block := rfl
@[simp] theorem State.abort_ports (s : State) : (s.abort).ports = { rdata := none, console := none, frame := none } := rfl
@[simp] theorem State.abort_spin (s : State) : (s.abort).spin = s.spin := rfl
@[simp] theorem State.abort_params (s : State) : (s.abort).params = s.params := rfl
@[simp] theorem State.abort_script (s : State) : (s.abort).script = s.script := rfl
@[simp] theorem State.abort_loop (s : State) : (s.abort).loop = s.loop := rfl
@[simp] theorem State.abort_names (s : State) : (s.abort).names = s.names := rfl
@[simp] theorem State.abort_waiting (s : State) : (s.abort).waiting = s.waiting := rfl
@[simp] theorem State.abort_order (s : State) : (s.abort).order = s.order := rfl
@[simp] theorem State.abort_tick (s : State) : (s.abort).tick = s.tick := rfl
@[simp] theorem State.abort_turns (s : State) : (s.abort).turns = s.turns := rfl
@[simp] theorem State.abort_yielded (s : State) : (s.abort).yielded = s.yielded := rfl
@[simp] theorem State.abort_hung (s : State) : (s.abort).hung = true := rfl

/-! `afterPollRead` -/

@[simp] theorem afterPollRead_block (v : Byte) (rest : List ScriptItem) (s : State) : (afterPollRead v rest s).block = s.block := rfl
@[simp] theorem afterPollRead_ports (v : Byte) (rest : List ScriptItem) (s : State) : (afterPollRead v rest s).ports = s.ports := rfl
@[simp] theorem afterPollRead_spin (v : Byte) (rest : List ScriptItem) (s : State) : (afterPollRead v rest s).spin = (if s.waiting then s.spin else 0) + 1 := rfl
@[simp] theorem afterPollRead_params (v : Byte) (rest : List ScriptItem) (s : State) : (afterPollRead v rest s).params = s.params := rfl
@[simp] theorem afterPollRead_script (v : Byte) (rest : List ScriptItem) (s : State) : (afterPollRead v rest s).script = if pollContinues s.params.polarity v then .poll :: rest else rest := rfl
@[simp] theorem afterPollRead_loop (v : Byte) (rest : List ScriptItem) (s : State) : (afterPollRead v rest s).loop = s.loop := rfl
@[simp] theorem afterPollRead_names (v : Byte) (rest : List ScriptItem) (s : State) : (afterPollRead v rest s).names = s.names := rfl
@[simp] theorem afterPollRead_waiting (v : Byte) (rest : List ScriptItem) (s : State) : (afterPollRead v rest s).waiting = pollContinues s.params.polarity v := rfl
@[simp] theorem afterPollRead_order (v : Byte) (rest : List ScriptItem) (s : State) : (afterPollRead v rest s).order = s.order := rfl
@[simp] theorem afterPollRead_tick (v : Byte) (rest : List ScriptItem) (s : State) : (afterPollRead v rest s).tick = s.tick := rfl
@[simp] theorem afterPollRead_turns (v : Byte) (rest : List ScriptItem) (s : State) : (afterPollRead v rest s).turns = s.turns := rfl
@[simp] theorem afterPollRead_yielded (v : Byte) (rest : List ScriptItem) (s : State) : (afterPollRead v rest s).yielded = true := rfl
@[simp] theorem afterPollRead_hung (v : Byte) (rest : List ScriptItem) (s : State) : (afterPollRead v rest s).hung = s.hung := rfl

/-! `placeWord` -/

@[simp] theorem placeWord_block (w : OpWord) (s : State) : (placeWord w s).block = s.block := rfl
@[simp] theorem placeWord_ports (w : OpWord) (s : State) : (placeWord w s).ports = s.ports := rfl
@[simp] theorem placeWord_spin (w : OpWord) (s : State) : (placeWord w s).spin = if s.overBudget then 0 else s.spin := rfl
@[simp] theorem placeWord_params (w : OpWord) (s : State) : (placeWord w s).params = { s.params with consumerPresent := s.params.consumerPresent || decide (w = encode .drain) } := rfl
@[simp] theorem placeWord_script (w : OpWord) (s : State) : (placeWord w s).script = s.script := rfl
@[simp] theorem placeWord_loop (w : OpWord) (s : State) : (placeWord w s).loop = s.loop := rfl
@[simp] theorem placeWord_names (w : OpWord) (s : State) : (placeWord w s).names = s.names := rfl
@[simp] theorem placeWord_waiting (w : OpWord) (s : State) : (placeWord w s).waiting = s.waiting := rfl
@[simp] theorem placeWord_order (w : OpWord) (s : State) : (placeWord w s).order = s.order := rfl
@[simp] theorem placeWord_tick (w : OpWord) (s : State) : (placeWord w s).tick = s.tick := rfl
@[simp] theorem placeWord_turns (w : OpWord) (s : State) : (placeWord w s).turns = .port w :: s.turns := rfl
@[simp] theorem placeWord_yielded (w : OpWord) (s : State) : (placeWord w s).yielded = s.yielded := rfl
@[simp] theorem placeWord_hung (w : OpWord) (s : State) : (placeWord w s).hung = false := rfl

/-! `noteIssued` -/

@[simp] theorem noteIssued_block (ag : Agent) (s : State) : (noteIssued ag s).block = s.block := by cases ag <;> rfl
@[simp] theorem noteIssued_ports (ag : Agent) (s : State) : (noteIssued ag s).ports = s.ports := by cases ag <;> rfl
@[simp] theorem noteIssued_params (ag : Agent) (s : State) : (noteIssued ag s).params = s.params := by cases ag <;> rfl
@[simp] theorem noteIssued_script (ag : Agent) (s : State) : (noteIssued ag s).script = s.script := by cases ag <;> rfl
@[simp] theorem noteIssued_loop (ag : Agent) (s : State) : (noteIssued ag s).loop = s.loop := by cases ag <;> rfl
@[simp] theorem noteIssued_names (ag : Agent) (s : State) : (noteIssued ag s).names = s.names := by cases ag <;> rfl
@[simp] theorem noteIssued_order (ag : Agent) (s : State) : (noteIssued ag s).order = s.order := by cases ag <;> rfl
@[simp] theorem noteIssued_tick (ag : Agent) (s : State) : (noteIssued ag s).tick = s.tick := by cases ag <;> rfl
@[simp] theorem noteIssued_turns (ag : Agent) (s : State) : (noteIssued ag s).turns = s.turns := by cases ag <;> rfl
@[simp] theorem noteIssued_hung (ag : Agent) (s : State) : (noteIssued ag s).hung = s.hung := by cases ag <;> rfl

/-- What the harness records of a client operation (spec 42_console.md R83). -/
@[simp] theorem noteIssued_client (s : State) : noteIssued .client s = { s with spin := 0, waiting := false, yielded := false } := rfl

/-- What the harness records of the consumer's step (spec 42_console.md R82). -/
@[simp] theorem noteIssued_consumer (s : State) : noteIssued .consumer s = { s with yielded := false } := rfl

@[simp] theorem noteIssued_sink (s : State) : noteIssued .sink s = s := rfl

@[simp] theorem noteIssued_host (s : State) : noteIssued .host s = s := rfl

end Sys2Proof.Machine
end

