-- ==== Sys2Proof/Laws/Ops.lean ====
section
/-! SUPPORT. The view of an address by its target, and what the Bus's write does to every view. -/

namespace Sys2Proof.Machine

open Sys2Proof

theorem peek_consoleData {b : Block} {a : Address} (h : resolve a = .consoleData) : peek b a = b.data := by
  simp [peek, h]

theorem peek_consoleReady {b : Block} {a : Address} (h : resolve a = .consoleReady) : peek b a = b.flag := by
  simp [peek, h]

theorem peek_framebuffer {b : Block} {a : Address} (h : resolve a = .framebuffer) : peek b a = cellRead b.fb a := by
  simp [peek, h]

theorem peek_ram {b : Block} {a : Address} (h : resolve a = .ram) : peek b a = ramRead b.ram a.toNat := by
  simp [peek, h]

/-- The view of an address depends on the one element its target names. -/
theorem peek_congr {b c : Block} {a : Address} (hd : resolve a = .consoleData → b.data = c.data)
    (hf : resolve a = .consoleReady → b.flag = c.flag) (hg : resolve a = .framebuffer → b.fb = c.fb)
    (hr : resolve a = .ram → b.ram = c.ram) : peek b a = peek c a := by
  unfold peek
  split <;> simp_all

theorem poke_of_consoleData {s : State} {a : Address} {v : Byte} (h : resolve a = .consoleData) :
    s.poke a v = s.setData v := by simp [State.poke, h]

theorem poke_of_consoleReady {s : State} {a : Address} {v : Byte} (h : resolve a = .consoleReady) :
    s.poke a v = s.setFlag v := by simp [State.poke, h]

theorem poke_of_framebuffer {s : State} {a : Address} {v : Byte} (h : resolve a = .framebuffer) :
    s.poke a v = s.setCell a v := by simp [State.poke, h]

theorem poke_of_ram {s : State} {a : Address} {v : Byte} (h : resolve a = .ram) :
    s.poke a v = s.setRam a v := by simp [State.poke, h]

/-- The Bus's write changes the view of its address and of no other (spec 41_bus_write.md R72). -/
theorem peek_poke (s : State) (a b : Address) (v : Byte) (hw : s.block.ram.wf = true) :
    peek (s.poke a v).block b = if b = a then v else peek s.block b := by
  by_cases hba : b = a
  · subst hba
    rw [if_pos rfl]
    cases h : resolve b with
    | consoleData => rw [poke_of_consoleData h, peek_consoleData h]; rfl
    | consoleReady => rw [poke_of_consoleReady h, peek_consoleReady h]; rfl
    | framebuffer =>
      rw [poke_of_framebuffer h, peek_framebuffer h, State.setCell_fb, cellRead_cellWrite _ _ h h, if_pos rfl]
    | ram => rw [poke_of_ram h, peek_ram h, State.setRam_ram, ramRead_ramWrite _ _ hw, if_pos rfl]
  · rw [if_neg hba]
    cases h : resolve a with
    | consoleData =>
      rw [poke_of_consoleData h]
      refine peek_congr (fun hb => ?_) (fun _ => rfl) (fun _ => rfl) (fun _ => rfl)
      rw [resolve_consoleData_iff] at h hb
      exact absurd (hb.trans h.symm) hba
    | consoleReady =>
      rw [poke_of_consoleReady h]
      refine peek_congr (fun _ => rfl) (fun hb => ?_) (fun _ => rfl) (fun _ => rfl)
      rw [resolve_consoleReady_iff] at h hb
      exact absurd (hb.trans h.symm) hba
    | framebuffer =>
      rw [poke_of_framebuffer h]
      cases hb : resolve b with
      | framebuffer =>
        rw [peek_framebuffer hb, peek_framebuffer hb, State.setCell_fb, cellRead_cellWrite _ _ h hb, if_neg hba]
      | consoleData => rw [peek_consoleData hb, peek_consoleData hb]; rfl
      | consoleReady => rw [peek_consoleReady hb, peek_consoleReady hb]; rfl
      | ram => rw [peek_ram hb, peek_ram hb]; rfl
    | ram =>
      rw [poke_of_ram h]
      cases hb : resolve b with
      | ram =>
        rw [peek_ram hb, peek_ram hb, State.setRam_ram, ramRead_ramWrite _ _ hw,
          if_neg fun e => hba (BitVec.eq_of_toNat_eq e).symm]
      | consoleData => rw [peek_consoleData hb, peek_consoleData hb]; rfl
      | consoleReady => rw [peek_consoleReady hb, peek_consoleReady hb]; rfl
      | framebuffer => rw [peek_framebuffer hb, peek_framebuffer hb]; rfl

/-- The Bus's write changes no more of the state than ram, DATA, FLAG and the framebuffer. -/
theorem poke_frame (s : State) (a : Address) (v : Byte) :
    s.poke a v = { s with block := (s.poke a v).block } ∧ (s.poke a v).block.out = s.block.out := by
  unfold State.poke
  split <;> exact ⟨rfl, rfl⟩

/-- The Bus's write keeps RAM canonical and free of device addresses (spec 10_state.md R15). -/
theorem poke_wf {s : State} (a : Address) (v : Byte) (h : s.block.wf = true) : (s.poke a v).block.wf = true := by
  simp only [Block.wf, Bool.and_eq_true] at h ⊢
  cases hr : resolve a with
  | ram => rw [poke_of_ram hr]; exact ⟨ramWrite_wf _ _ h.1, ramWrite_onlyRam _ hr h.2⟩
  | consoleData => rw [poke_of_consoleData hr]; exact h
  | consoleReady => rw [poke_of_consoleReady hr]; exact h
  | framebuffer => rw [poke_of_framebuffer hr]; exact h

/-- The invariant's three parts. -/
theorem state_wf_iff (s : State) : s.wf = true ↔
    s.block.wf = true ∧ (s.waiting = true → s.script.head? = some .poll) ∧ (s.names.map Prod.fst).Nodup := by
  unfold State.wf
  cases s.waiting <;> simp [and_assoc]

/-- A name bound leaves each name with one result. -/
theorem bindName_nodup (n : Name) (v : Byte) {ns : List (Name × Byte)} (h : (ns.map Prod.fst).Nodup) :
    ((bindName n v ns).map Prod.fst).Nodup := by
  simp only [bindName, List.map_cons, List.nodup_cons, List.mem_map, List.mem_filter]
  refine ⟨fun ⟨b, hb, e⟩ => ?_, h.sublist (List.filter_sublist.map _)⟩
  exact of_decide_eq_true hb.2 e

/-- A name bound stands for its result, and every other name for what it stood for (spec 30_encoding.md R62). -/
theorem nameValue_bindName (n m : Name) (v : Byte) (ns : List (Name × Byte)) :
    nameValue m (bindName n v ns) = if m = n then some v else nameValue m ns := by
  have other : ∀ l : List (Name × Byte), m ≠ n → nameValue m (l.filter fun b => decide (b.1 ≠ n)) = nameValue m l := by
    intro l hm
    induction l with
    | nil => rfl
    | cons b l ih =>
      by_cases hb : b.1 = n
      · rw [List.filter_cons_of_neg (by simp [hb]), ih, nameValue, if_neg (hb ▸ hm.symm)]
      · rw [List.filter_cons_of_pos (by simp [hb]), nameValue, nameValue, ih]
  unfold bindName
  rw [nameValue]
  by_cases h : m = n
  · rw [if_pos h.symm, if_pos h]
  · rw [if_neg (Ne.symm h), if_neg h, other ns h]

/-- A name has a value exactly if a result has been given it. -/
theorem nameValue_isSome (n : Name) (ns : List (Name × Byte)) : (nameValue n ns).isSome = true ↔ n ∈ ns.map Prod.fst := by
  induction ns with
  | nil => simp [nameValue]
  | cons b ns ih =>
    rw [nameValue, List.map_cons, List.mem_cons]
    by_cases h : b.1 = n
    · simp [h]
    · rw [if_neg h, ih]
      exact ⟨.inr, fun h' => h'.resolve_left (Ne.symm h)⟩

/-- What a read leaves of the names keeps each name to one result. -/
theorem bindResult_nodup (name : Option Name) (v : Byte) {ns : List (Name × Byte)} (h : (ns.map Prod.fst).Nodup) :
    ((bindResult name v ns).map Prod.fst).Nodup := by
  cases name with
  | none => exact h
  | some n => exact bindName_nodup n v h

@[simp] theorem consoleState_eq_idle (f : Byte) : consoleState f = .idle ↔ f = 0x00#8 := by
  unfold consoleState
  split <;> simp_all

@[simp] theorem consoleState_eq_pending (f : Byte) : consoleState f = .pending ↔ f ≠ 0x00#8 := by
  unfold consoleState
  split <;> simp_all

/-- DRAIN when Pending (spec 42_console.md R79). -/
theorem execDrain_pending {s : State} (h : s.block.flag ≠ 0x00#8) :
    execDrain s = .next (((s.emit s.block.data).setFlag 0x00#8).driveConsole s.block.data) := by
  unfold execDrain
  rw [(consoleState_eq_pending _).2 h]

/-- DRAIN when Idle (spec 42_console.md R79). -/
theorem execDrain_idle {s : State} (h : s.block.flag = 0x00#8) : execDrain s = .next s.quiet := by
  unfold execDrain
  rw [(consoleState_eq_idle _).2 h]

theorem execRdRam_next {s : State} {a : Address} (h : resolve a = .ram) :
    execRdRam a s = .next (s.driveRdata (ramRead s.block.ram a.toNat)) := if_pos h

theorem execWrRam_next {s : State} {a : Address} {v : Byte} (h : resolve a = .ram) :
    execWrRam a v s = .next (s.setRam a v).quiet := if_pos h

/-- The budget is exceeded exactly where there is one and `spin` is above it (spec 43_host.md R89). -/
theorem overBudget_iff (s : State) : s.overBudget = true ↔ ∃ n, s.params.stepBudget = some n ∧ n < s.spin := by
  unfold State.overBudget
  cases s.params.stepBudget with
  | none => simp
  | some n => simp

theorem overBudget_eq_false_iff (s : State) : s.overBudget = false ↔ ∀ n, s.params.stepBudget = some n → s.spin ≤ n := by
  rw [← Bool.not_eq_true, overBudget_iff]
  simp

/-- A placed word is not pre-empted by the host's abort. -/
@[simp] theorem placeWord_overBudget (w : OpWord) (s : State) : (placeWord w s).overBudget = false := by
  rw [overBudget_eq_false_iff]
  intro n hn
  rw [placeWord_spin]
  split
  · exact Nat.zero_le n
  · rename_i h
    exact (overBudget_eq_false_iff s).1 (by simpa using h) n hn

end Sys2Proof.Machine
end

