-- ==== Sys2Proof/Laws/PerInstr.lean ====
section
/-! SUPPORT. Statements per constructor of Instr, about the operation as a term: the fields of its word (spec 30_encoding.md R53, R55) and
the target of its address (R55; 20_memory.md R34). -/

namespace Sys2Proof.Laws.EncodeFields

open Sys2Proof

/-- The word's three fields are the operation's OP, ADDR and DATA. -/
def Statement (i : Instr) : Prop :=
  opField (encode i) = opcodeOf i ∧ addrField (encode i) = addressOf i ∧ dataField (encode i) = dataOf i

theorem all (i : Instr) : Statement i :=
  ⟨opField_opWord .., addrField_opWord .., dataField_opWord ..⟩

theorem rdCdat : Statement .rdCdat := all _
theorem rdCrdy : Statement .rdCrdy := all _
theorem rdFbLow (x : BitVec 9) : Statement (.rdFbLow x) := all _
theorem rdFbHigh (x : BitVec 9) : Statement (.rdFbHigh x) := all _
theorem rdRam (a : Address) : Statement (.rdRam a) := all _
theorem wrCdat (v : Byte) : Statement (.wrCdat v) := all _
theorem wrCrdy (v : Byte) : Statement (.wrCrdy v) := all _
theorem wrFbLow (x : BitVec 9) (v : Byte) : Statement (.wrFbLow x v) := all _
theorem wrFbHigh (x : BitVec 9) (v : Byte) : Statement (.wrFbHigh x v) := all _
theorem wrRam (a : Address) (v : Byte) : Statement (.wrRam a v) := all _
theorem drain : Statement .drain := all _
theorem frame : Statement .frame := all _
theorem clear : Statement .clear := all _
theorem reset : Statement .reset := all _

end Sys2Proof.Laws.EncodeFields

namespace Sys2Proof.Laws.TargetResolves

open Sys2Proof Sys2Proof.Machine

/-- The address of a well-formed bus operation resolves to the operation's target. -/
def Statement (i : Instr) : Prop :=
  i.wf = true → ∀ g, targetOf i = some g → resolve (addressOf i) = g

theorem rdCdat : Statement .rdCdat := fun _ _ h => Option.some.inj h ▸ resolve_conData
theorem rdCrdy : Statement .rdCrdy := fun _ _ h => Option.some.inj h ▸ resolve_conReady
theorem rdFbLow (x : BitVec 9) : Statement (.rdFbLow x) := fun _ _ h => Option.some.inj h ▸ resolve_fbLowAddr x
theorem rdFbHigh (x : BitVec 9) : Statement (.rdFbHigh x) := fun _ _ h => Option.some.inj h ▸ resolve_fbHighAddr x
theorem rdRam (a : Address) : Statement (.rdRam a) := fun w _ h => Option.some.inj h ▸ of_decide_eq_true w
theorem wrCdat (v : Byte) : Statement (.wrCdat v) := fun _ _ h => Option.some.inj h ▸ resolve_conData
theorem wrCrdy (v : Byte) : Statement (.wrCrdy v) := fun _ _ h => Option.some.inj h ▸ resolve_conReady
theorem wrFbLow (x : BitVec 9) (v : Byte) : Statement (.wrFbLow x v) :=
  fun _ _ h => Option.some.inj h ▸ resolve_fbLowAddr x
theorem wrFbHigh (x : BitVec 9) (v : Byte) : Statement (.wrFbHigh x v) :=
  fun _ _ h => Option.some.inj h ▸ resolve_fbHighAddr x
theorem wrRam (a : Address) (v : Byte) : Statement (.wrRam a v) := fun w _ h => Option.some.inj h ▸ of_decide_eq_true w
theorem drain : Statement .drain := fun _ _ h => nomatch h
theorem frame : Statement .frame := fun _ _ h => nomatch h
theorem clear : Statement .clear := fun _ _ h => nomatch h
theorem reset : Statement .reset := fun _ _ h => nomatch h

end Sys2Proof.Laws.TargetResolves
end

