-- ==== Sys2Proof/Laws/Step.lean ====
section
/-! SUPPORT. What a step can do, said once: the presented word, the client's turn, and the step. -/

namespace Sys2Proof.Machine

open Sys2Proof

/-- An operation that completes changes no more than the block, the ports and the host's counter. -/
theorem exec_agents {i : Instr} {s t : State} (h : exec i s = .next t) :
    t = { s with block := t.block, ports := t.ports, spin := t.spin } := by
  have ram : ∀ (a : Address) (u : State),
      (if resolve a = .ram then .next u else .refused .notRam : Host.Outcome State Fault Refusal) = .next t → u = t := by
    intro a u h
    split at h <;> cases h
    rfl
  cases i with
  | drain =>
    by_cases hf : s.block.flag = 0x00#8
    · rw [show exec .drain s = _ from execDrain_idle hf] at h; cases h; rfl
    · rw [show exec .drain s = _ from execDrain_pending hf] at h; cases h; rfl
  | rdRam a => cases ram a _ h; rfl
  | wrRam a v => cases ram a _ h; rfl
  | rdCdat => cases h; rfl
  | rdCrdy => cases h; rfl
  | rdFbLow x => cases h; rfl
  | rdFbHigh x => cases h; rfl
  | wrCdat v => cases h; rfl
  | wrCrdy v => cases h; rfl
  | wrFbLow x v => cases h; rfl
  | wrFbHigh x v => cases h; rfl
  | frame => cases h; rfl
  | clear => cases h; rfl
  | reset => cases h; rfl

/-- A presented word that answers a next state is an operation, with a consumer if it is a DRAIN, and is carried out. -/
theorem present_next {w : OpWord} {s t : State} (h : present w s = .next t) :
    ∃ i, wordOp w s = some i ∧ exec i (noteIssued (issuerOf i) s) = .next t := by
  unfold present at h
  unfold wordOp
  cases hd : decode w with
  | error e => rw [hd] at h; cases h
  | ok i =>
    rw [hd] at h
    simp only at h ⊢
    split at h
    · cases h
    · rename_i hc
      exact ⟨i, if_neg hc, h⟩

/-- A presented word that decodes to an operation with no need of a consumer is that operation. -/
theorem present_of_decode {w : OpWord} {i : Instr} {s : State} (hd : decode w = .ok i)
    (hc : issuerOf i = .consumer → s.params.consumerPresent = true) :
    present w s = exec i (noteIssued (issuerOf i) s) := by
  unfold present
  rw [hd]
  exact if_neg fun h => by simp [hc h.1] at h

/-- The poll's read of the ready flag. -/
@[simp] theorem decode_pollRead : decode (readWord hardwareMap.conReady) = .ok .rdCrdy := by decide

theorem peek_conReady (b : Block) : peek b hardwareMap.conReady = b.flag := peek_consoleReady (by decide)

/-- One iteration of a busy-wait (spec 30_encoding.md R64; 42_console.md R83). -/
theorem pollIteration_eq (rest : List ScriptItem) (s : State) :
    pollIteration rest s = .next ((afterPollRead s.block.flag rest s).driveRdata s.block.flag) := by
  unfold pollIteration
  rw [decode_pollRead, peek_conReady]
  rfl

/-- What is recorded of an issued operation keeps the invariant. -/
theorem noteIssued_wf (ag : Agent) {s : State} (h : s.wf = true) : (noteIssued ag s).wf = true := by
  rw [state_wf_iff] at h ⊢
  cases ag with
  | client => exact ⟨h.1, fun hw => by simp at hw, h.2.2⟩
  | consumer => exact h
  | sink => exact h
  | host => exact h

/-- What the agents hold when the operation of a step is carried out: the block, the parameters, the loop and the order as they were, and
the client's program where it was, at the head of what was to come, or one item further. -/
structure Carried (s s' : State) : Prop where
  block : s'.block = s.block
  params : s'.params = s.params
  hung : s'.hung = s.hung
  loop : s'.loop = s.loop
  order : s'.order = s.order
  script : s'.script = s.script ∨ s'.script = s.upcoming ∨ ∃ x, s.upcoming = x :: s'.script
  wf : s.wf = true → s'.wf = true

/-- A presented word leaves the schedule's tail and carries its operation out. -/
theorem present_cases {w : OpWord} {s t : State} (h : present w s = .next t) :
    ∃ i s', wordOp w s = some i ∧ exec i s' = .next t ∧ Carried s s' ∧ s'.turns = s.turns := by
  obtain ⟨i, hi, he⟩ := present_next h
  exact ⟨i, _, hi, he, ⟨by simp, by simp, by simp, by simp, by simp, .inl (by simp), noteIssued_wf _⟩, by simp⟩

/-- The client's turn that answers a next state carries out the operation its program names. -/
theorem clientTurn_cases {s t : State} (h : clientTurn s = .next t) :
    ∃ i s', clientOp s = some i ∧ exec i s' = .next t ∧ Carried s s' ∧ s'.turns = s.turns := by
  have other : ∀ rest names, (∃ x, s.upcoming = x :: rest) → ((s.names.map Prod.fst).Nodup → (names.map Prod.fst).Nodup) →
      ∀ i, Carried s (noteIssued (issuerOf i) { s with script := rest, names := names }) ∨ issuerOf i ≠ .client := by
    intro rest names hx hn i
    by_cases hi : issuerOf i = .client
    · rw [hi]
      refine .inl ⟨rfl, rfl, rfl, rfl, rfl, .inr (.inr hx), fun hw => ?_⟩
      rw [state_wf_iff] at hw ⊢
      exact ⟨hw.1, fun e => by simp at e, hn hw.2.2⟩
    · exact .inr hi
  have bus : ∀ w names rest, (∃ x, s.upcoming = x :: rest) → ((s.names.map Prod.fst).Nodup → (names.map Prod.fst).Nodup) →
      (∀ i, decode w = .ok i → issuerOf i = .client) → present w { s with script := rest, names := names } = .next t →
      ∃ i s', wordOp w s = some i ∧ exec i s' = .next t ∧ Carried s s' ∧ s'.turns = s.turns := by
    intro w names rest hx hn hc hp
    obtain ⟨i, hi, he⟩ := present_next hp
    have hcl : issuerOf i = .client := by
      unfold wordOp at hi
      split at hi
      · cases hi
      · rename_i j hd
        split at hi <;> cases hi
        exact hc _ hd
    exact ⟨i, _, hi, he, (other rest names hx hn i).resolve_right (· hcl), by simp⟩
  have reader : ∀ a i, decode (readWord a) = .ok i → issuerOf i = .client := by
    intro a i hd
    rw [show readWord a = opWord 0b000#3 a 0x00#8 from rfl, decode_read] at hd
    cases hd
    unfold readInstr
    split_ifs <;> rfl
  have writer : ∀ a v i, decode (writeWord a v) = .ok i → issuerOf i = .client := by
    intro a v i hd
    rw [show writeWord a v = opWord 0b001#3 a v from rfl, decode_write] at hd
    cases hd
    unfold writeInstr
    split_ifs <;> rfl
  unfold clientTurn at h
  unfold clientOp
  cases hu : s.upcoming with
  | nil => rw [hu] at h; cases h
  | cons x rest =>
    rw [hu] at h
    cases x with
    | read a name =>
      cases ha : a.value s.names with
      | none => simp only [ha] at h; cases h
      | some a' =>
        simp only [ha] at h ⊢
        exact bus _ _ _ ⟨_, hu⟩ (bindResult_nodup name _) (reader a') h
    | write a v =>
      cases ha : a.value s.names with
      | none => simp only [ha] at h; cases h
      | some a' =>
        cases hv : v.value s.names with
        | none => simp only [ha, hv] at h; cases h
        | some v' =>
          simp only [ha, hv] at h ⊢
          exact bus _ _ _ ⟨_, hu⟩ id (writer a' v') h
    | poll =>
      simp only [pollIteration, decode_pollRead] at h
      refine ⟨.rdCrdy, _, ?_, h, ⟨by simp, by simp, by simp, by simp, by simp, ?_, fun hw => ?_⟩, by simp⟩
      · simp [wordOp, issuerOf]
      · rw [afterPollRead_script]
        split
        · exact .inr (.inl hu.symm)
        · exact .inr (.inr ⟨_, hu⟩)
      · rw [state_wf_iff] at hw ⊢
        exact ⟨hw.1, fun e => by rw [afterPollRead_waiting] at e; rw [afterPollRead_script, if_pos e]; rfl, hw.2.2⟩

/-- A turn that answers a next state carries out the operation it names. -/
theorem runTurn_cases {u : Turn} {s t : State} (h : runTurn u s = .next t) :
    ∃ i s', turnOp u s = some i ∧ exec i s' = .next t ∧ Carried s s' ∧ s'.turns = s.turns := by
  cases u with
  | client => exact clientTurn_cases h
  | port w => exact present_cases h

/-- Where the run has not ended and the host does not abort, a step is a turn taken. -/
theorem step_turn {s : State} (hh : s.hung = false) (hb : s.overBudget = false) : step s = takeTurn s := by
  simp [step, runStep, hh, hb]

/-- SCHED_COOP after a yield: the consumer's DRAIN (spec 42_console.md R82). -/
theorem step_coop_drain {s : State} (hh : s.hung = false) (hb : s.overBudget = false) (ht : s.turns = []) (ho : s.order = .coop)
    (hy : s.yielded = true) (hp : s.params.consumerPresent = true) : step s = exec .drain { s with yielded := false } := by
  have h : takeTurn s = present (encode .drain) s := by
    unfold takeTurn coopTurn
    rw [ht, ho]
    simp [hy, hp]
  rw [step_turn hh hb, h, present_of_decode decode_drain (fun _ => hp)]
  rfl

/-- SCHED_COOP with no yield, or with no consumer: the client (spec 42_console.md R82). -/
theorem step_coop_client {s : State} (hh : s.hung = false) (hb : s.overBudget = false) (ht : s.turns = []) (ho : s.order = .coop)
    (h : s.yielded = false ∨ s.params.consumerPresent = false) : step s = clientTurn s := by
  rw [step_turn hh hb]
  have : (s.yielded && s.params.consumerPresent) = false := by rcases h with h | h <;> simp [h]
  simp only [takeTurn, ht, ho, coopTurn, this, Bool.false_eq_true, if_false]

/-- The client at a busy-wait makes one iteration of it. -/
theorem clientTurn_poll {s : State} {rest : List ScriptItem} (h : s.upcoming = .poll :: rest) :
    clientTurn s = .next ((afterPollRead s.block.flag rest s).driveRdata s.block.flag) := by
  simp only [clientTurn, h, pollIteration_eq]

/-- What a step can do: the host's abort of a client over budget, or the operation `nextOp` names, carried out on the same block with the
oldest turn taken. -/
theorem step_cases {s t : State} (h : step s = .next t) :
    s.hung = false ∧ ((s.overBudget = true ∧ nextOp s = none ∧ t = s.abort) ∨
      (s.overBudget = false ∧ ∃ i s', nextOp s = some i ∧ exec i s' = .next t ∧ Carried s s' ∧ s'.turns = s.turns.tail)) := by
  unfold step runStep at h
  unfold nextOp
  cases hh : s.hung with
  | true => rw [hh] at h; cases h
  | false =>
    rw [hh] at h
    cases hb : s.overBudget with
    | true =>
      rw [hb] at h
      cases h
      exact ⟨rfl, .inl ⟨rfl, rfl, rfl⟩⟩
    | false =>
      rw [hb] at h
      refine ⟨rfl, .inr ⟨rfl, ?_⟩⟩
      simp only [Bool.false_eq_true, if_false, takeTurn] at h
      simp only [Bool.or_self, Bool.false_eq_true, if_false]
      cases ht : s.turns with
      | cons u ts =>
        rw [ht] at h
        obtain ⟨i, s', hi, he, hc, htu⟩ := runTurn_cases h
        refine ⟨i, s', ?_, he, ⟨hc.block, hc.params, hc.hung, hc.loop, hc.order, hc.script, hc.wf⟩, htu⟩
        cases u <;> exact hi
      | nil =>
        rw [ht] at h
        cases ho : s.order with
        | coop =>
          rw [ho] at h
          simp only [coopTurn] at h
          simp only
          split at h
          · rename_i hc
            obtain ⟨i, s', hi, he, hc', htu⟩ := present_cases h
            rw [if_pos hc]
            have hp : s.params.consumerPresent = true := by simp_all
            have e : wordOp (encode .drain) s = some .drain := by simp [wordOp, hp]
            cases hi.symm.trans e
            exact ⟨.drain, s', rfl, he, hc', htu.trans ht⟩
          · rename_i hc
            rw [if_neg hc]
            obtain ⟨i, s', hi, he, hc', htu⟩ := clientTurn_cases h
            exact ⟨i, s', hi, he, hc', htu.trans ht⟩
        | free =>
          rw [ho] at h
          simp only [freeTurn] at h
          obtain ⟨i, s', hi, he, hc, htu⟩ := runTurn_cases h
          refine ⟨i, s', ?_, he, ⟨hc.block, hc.params, hc.hung, hc.loop, hc.order, hc.script, hc.wf⟩, htu.trans ht⟩
          cases hm : moveTurn s.params (Config.freeMove s.tick) <;> rw [hm] at hi <;> exact hi

end Sys2Proof.Machine
end

