-- ==== Sys2Proof/Tests/Slice0.lean ====
section
/-! SUPPORT. Small tests of one operation or one step each, their expected results from the spec's own examples and vectors
(95_test_vectors.md), and a witness for the hypotheses of every statement that has any. -/

namespace Sys2Proof.Tests

open Sys2Proof Sys2Proof.Machine

/-- What a field is after one operation. -/
def after {α : Type} (i : Instr) (s : State) (f : State → α) : Option α :=
  match exec i s with
  | .next t => some (f t)
  | .fault _ => none
  | .refused _ => none

/-- What a field is after one step. -/
def stepped {α : Type} (s : State) (f : State → α) : Option α :=
  match step s with
  | .next t => some (f t)
  | .fault _ => none
  | .refused _ => none

/-- The launch state with a byte in DATA and a byte in FLAG. -/
def console (d f : Byte) : State :=
  { State.reset with block := { Block.launch with data := d, flag := f } }

/-- The launch state with one RAM cell set. -/
def oneCell (a : Nat) (v : Byte) : State :=
  { State.reset with block := { Block.launch with ram := [(a, v)] } }

/-- The launch state with fb[5][7] = 0xE0. -/
def onePixel : State :=
  State.reset.setCell 0x02A7#16 0xE0#8

/-- A client at its busy-wait on a Pending console. -/
def waiting (p : Params) : State :=
  { console 0x41#8 0x01#8 with params := p, script := [.poll] }

/-! Well-formedness: the two checks refuse (30_encoding.md R55; 40_bus_read.md R68; 41_bus_write.md R73) -/

theorem test_wf_refuses_rdRam_of_flag : (Instr.rdRam 0x00FE#16).wf = false := by decide
theorem test_wf_refuses_wrRam_of_cell : (Instr.wrRam 0x0200#16 0x01#8).wf = false := by decide
theorem test_wf_takes_ram_edges :
    ([0x0000#16, 0x00FD#16, 0x0100#16, 0x01FF#16, 0x0600#16, 0xFFFF#16].all fun a => (Instr.rdRam a).wf) = true := by decide

/-! Decoding: words written out from the fields OP ADDR DATA (30_encoding.md R53, R55), bit by bit, and V-E -/

theorem test_decode_rdCdat : decode (0b000_0000000011111111_00000000#27) = .ok .rdCdat := rfl
theorem test_decode_rdCrdy : decode (0b000_0000000011111110_00000000#27) = .ok .rdCrdy := rfl
theorem test_decode_rdFbLow : decode (0b000_0000001_010100111_00000000#27) = .ok (.rdFbLow 0b010100111#9) := rfl
theorem test_decode_rdFbLow_last : decode 0x003FF00#27 = .ok (.rdFbLow 0x1FF#9) := rfl
theorem test_decode_rdFb_ignores_data : decode 0x0020055#27 = .ok (.rdFbLow 0x000#9) := rfl
theorem test_decode_rdFbHigh : decode (0b000_0000010_000000000_00000000#27) = .ok (.rdFbHigh 0x000#9) := rfl
theorem test_decode_rdRam : decode (0b000_0000000111111111_00000000#27) = .ok (.rdRam 0x01FF#16) := rfl
theorem test_decode_rdRam_zero : decode 0x0000000#27 = .ok (.rdRam 0x0000#16) := rfl
theorem test_decode_wrCdat : decode (0b001_0000000011111111_01001000#27) = .ok (.wrCdat 0x48#8) := rfl
theorem test_decode_wrCrdy : decode (0b001_0000000011111110_00000001#27) = .ok (.wrCrdy 0x01#8) := rfl
theorem test_decode_wrFbLow : decode (0b001_0000001_010100111_11100000#27) = .ok (.wrFbLow 0x0A7#9 0xE0#8) := rfl
theorem test_decode_wrFbHigh : decode (0b001_0000010_111111111_00000001#27) = .ok (.wrFbHigh 0x1FF#9 0x01#8) := rfl
theorem test_decode_wrRam : decode (0b001_0000011000000000_00000001#27) = .ok (.wrRam 0x0600#16 0x01#8) := rfl
theorem test_decode_wrRam_alias : decode 0x110FE01#27 = .ok (.wrRam 0x10FE#16 0x01#8) := rfl
theorem test_decode_wrRam_top : decode 0x1FFFFFF#27 = .ok (.wrRam 0xFFFF#16 0xFF#8) := rfl
theorem test_decode_drain : decode (0b010_0000000000000000_00000000#27) = .ok .drain := rfl
theorem test_decode_frame : decode (0b011_0000000000000000_00000000#27) = .ok .frame := rfl
theorem test_decode_clear : decode (0b100_0000000000000000_00000000#27) = .ok .clear := rfl
theorem test_decode_reset : decode (0b101_0000000000000000_00000000#27) = .ok .reset := rfl
theorem test_decode_drain_with_data : decode 0x2000001#27 = .error .nonzeroOperand := rfl
theorem test_decode_reset_with_address : decode 0x500FE00#27 = .error .nonzeroOperand := rfl
theorem test_decode_op6 : decode 0x6000000#27 = .error .reservedOpcode := rfl
theorem test_decode_op7 : decode 0x7FFFFFF#27 = .error .reservedOpcode := rfl
theorem test_table_word : decodeTableWord 32 0x102A7E0 = some (.wrFbLow 0x0A7#9 0xE0#8) := by decide
theorem test_table_word_too_wide : decodeTableWord 32 0x8000000 = none := by decide

/-! The decoder and the cells: V-D -/

theorem test_resolve_ram :
    ([0x0000#16, 0x00FD#16, 0x0100#16, 0x01FE#16, 0x01FF#16, 0x0600#16, 0x10FE#16, 0xFFFE#16, 0xFFFF#16].map resolve)
      = List.replicate 9 Target.ram := by decide
theorem test_resolve_devices :
    ([0x00FE#16, 0x00FF#16, 0x0200#16, 0x0220#16, 0x05FF#16].map resolve)
      = [.consoleReady, .consoleData, .framebuffer, .framebuffer, .framebuffer] := by decide
theorem test_cells :
    ([0x0200#16, 0x021F#16, 0x0220#16, 0x023F#16, 0x02A7#16, 0x03FF#16, 0x0400#16, 0x05FF#16].map fun a => (cellRow a, cellCol a))
      = [(0#5, 0#5), (0#5, 31#5), (1#5, 0#5), (1#5, 31#5), (5#5, 7#5), (15#5, 31#5), (16#5, 0#5), (31#5, 31#5)] := by decide

/-! Operations: V-R, V-C, V-F, V-X -/

theorem test_rdRam : after (.rdRam 0x1234#16) (oneCell 0x1234 0x5A#8) (·.ports.rdata) = some (some 0x5A#8) := by decide
theorem test_rdRam_unwritten : after (.rdRam 0x1235#16) (oneCell 0x1234 0x5A#8) (·.ports.rdata) = some (some 0x00#8) := by decide
theorem test_wrRam : after (.wrRam 0x0010#16 0x07#8) (oneCell 0x1234 0x5A#8) (·.block.ram) = some [(0x10, 0x07#8), (0x1234, 0x5A#8)] := by
  decide
theorem test_wrRam_zero : after (.wrRam 0x0010#16 0x00#8) (oneCell 0x0010 0x07#8) (·.block.ram) = some [] := by decide
theorem test_rdCrdy_verbatim : after .rdCrdy (console 0x41#8 0x80#8) (·.ports.rdata) = some (some 0x80#8) := by decide
theorem test_rdCdat : after .rdCdat (console 0x48#8 0x00#8) (·.ports.rdata) = some (some 0x48#8) := by decide
theorem test_wrCrdy : after (.wrCrdy 0x02#8) (console 0x41#8 0x01#8) (fun t => (t.block.flag, t.block.data, t.block.out))
    = some (0x02#8, 0x41#8, []) := by decide
theorem test_wrCdat_while_pending : after (.wrCdat 0x42#8) (console 0x41#8 0x01#8) (fun t => (t.block.flag, t.block.data, t.block.out))
    = some (0x01#8, 0x42#8, []) := by decide
theorem test_drain_pending : after .drain (console 0x48#8 0x01#8)
    (fun t => (t.block.out, t.block.flag, t.block.data, t.ports.console)) = some ([0x48#8], 0x00#8, 0x48#8, some 0x48#8) := by decide
theorem test_drain_idle : after .drain (console 0x41#8 0x00#8) (fun t => (t.block.out, t.block.flag, t.ports.console))
    = some ([], 0x00#8, none) := by decide
theorem test_rdFbLow : after (.rdFbLow 0x0A7#9) onePixel (·.ports.rdata) = some (some 0xE0#8) := by decide
theorem test_wrFbLow_row_end : after (.wrFbLow 0x020#9 0x33#8) State.reset (fun t => (peek t.block 0x021F#16, peek t.block 0x0220#16))
    = some (0x00#8, 0x33#8) := by decide
theorem test_rdFbHigh : after (.rdFbHigh 0x1FF#9) (State.reset.setCell 0x05FF#16 0x22#8) (·.ports.rdata) = some (some 0x22#8) := by decide
theorem test_wrFbHigh : after (.wrFbHigh 0x1FF#9 0x22#8) State.reset (fun t => (gridRead t.block.fb 31#5 31#5, gridRead t.block.fb 15#5 31#5))
    = some (0x22#8, 0x00#8) := by decide
theorem test_frame : after .frame onePixel (fun t => t.ports.frame.map fun g => (gridRead g 5#5 7#5, gridRead g 7#5 5#5))
    = some (some (0xE0#8, 0x00#8)) := by decide
theorem test_clear : after .clear onePixel (fun t => peek t.block 0x02A7#16) = some 0x00#8 := by decide
theorem test_clear_keeps_console : after .clear (console 0x41#8 0x01#8) (·.block.flag) = some 0x01#8 := by decide
theorem test_reset : after .reset (console 0x48#8 0x01#8) (fun t => (t.block.data, t.block.flag, t.block.out, t.spin))
    = some (0x00#8, 0x00#8, [], 0) := by decide

/-! Steps: P1, P5, and the placed word -/

theorem test_step_polls : stepped (waiting ⟨.neZero, true, none⟩) (fun t => (t.ports.rdata, t.spin, t.yielded, t.script))
    = some (some 0x01#8, 1, true, [.poll]) := by decide
theorem test_step_second_poll_counts_from_one : stepped { waiting ⟨.neZero, true, none⟩ with block := Block.launch, spin := 2, script := [.poll, .poll] }
    (fun t => (t.spin, t.waiting, t.script)) = some (1, false, [.poll]) := by decide
theorem test_step_same_poll_counts_on : stepped { waiting ⟨.neZero, false, none⟩ with waiting := true, spin := 2 } (fun t => (t.spin, t.waiting))
    = some (3, true) := by decide
theorem test_step_names_a_result : stepped { oneCell 0x1234 0x5A#8 with script := [.read (.lit 0x1234#16) (some ['v'])] }
    (fun t => (t.names, t.ports.rdata)) = some ([(['v'], 0x5A#8)], some 0x5A#8) := by decide
theorem test_step_uses_a_name : stepped { State.reset with script := [.write (.lit 0x0010#16) (.named ['v'])], names := [(['v'], 0x5A#8)] }
    (·.block.ram) = some [(0x10, 0x5A#8)] := by decide
theorem test_step_loops : stepped { State.reset with loop := [.read (.lit 0x0010#16) none, .poll] } (fun t => (t.script, t.loop.length))
    = some ([.poll], 2) := by decide
theorem test_step_poll_exits_on_two : stepped { waiting ⟨.eqOne, true, none⟩ with block := (console 0x41#8 0x02#8).block }
    (fun t => (t.ports.rdata, t.script)) = some (some 0x02#8, []) := by decide
theorem test_step_coop_drains : stepped { waiting ⟨.neZero, true, none⟩ with yielded := true } (fun t => (t.block.out, t.block.flag))
    = some ([0x41#8], 0x00#8) := by decide
theorem test_step_no_consumer_polls_on : stepped { waiting ⟨.neZero, false, none⟩ with yielded := true, waiting := true, spin := 1 }
    (fun t => (t.block.flag, t.spin)) = some (0x01#8, 2) := by decide
theorem test_step_aborts : stepped { waiting ⟨.neZero, false, some 3⟩ with spin := 4 } (fun t => (t.hung, t.block.flag))
    = some (true, 0x01#8) := by decide
theorem test_step_placed_word : stepped (State.reset.withFetchWord 32 0x100FF48) (·.block.data) = some 0x48#8 := by decide
theorem test_unbound_name_refused : step { State.reset with script := [.read (.named ['v']) none] } = .refused .unboundName := rfl
theorem test_reset_has_nothing_to_run : step State.reset = .fault .runDone := rfl
theorem test_reserved_word_refused : step (State.reset.withFetchWord 32 0x6000000) = .refused .reservedOp := rfl
theorem test_two_byte_read_refused : memRead 0x0010#16 2 State.reset = .refused .multiByteAccess := rfl

/-! Scripts: R62, R63, R65 and their examples -/

theorem test_parse_write : parseLine ['w', 'r', 'i', 't', 'e', '(', '0', 'x', '0', '2', 'A', '7', ',', ' ', '2', '2', '4', ')', ' ', ';', 'x']
    = .ok (some (.write (.num 0x2A7) (.num 0xE0))) := rfl
theorem test_parse_write_of_a_name : parseLine ['w', 'r', 'i', 't', 'e', '(', '0', 'x', '1', '0', ',', ' ', 'v', ')']
    = .ok (some (.write (.num 0x10) (.name ['v']))) := rfl
theorem test_parse_named : parseLine ['v', '1', ' ', '<', '-', ' ', 'r', 'e', 'a', 'd', '(', '0', 'x', '6', '0', '0', ')']
    = .ok (some (.named ['v', '1'] (.num 0x600))) := rfl
theorem test_parse_named_pget_refused : parseLine ['v', '<', '-', 'p', 'g', 'e', 't', ' ', '5', ',', '7'] = .error .badLine := rfl
theorem test_parse_comment : parseLine [' ', ';', 'x'] = .ok none := rfl
/-- The model's choices of a line's text (log 18): a form's word as a name, a blank line, a tab. -/
theorem test_parse_keyword_as_name_blank_and_tab :
    parseLine ['r', 'e', 'a', 'd', '<', '-', 'r', 'e', 'a', 'd', '(', '1', ')'] = .ok (some (.named ['r', 'e', 'a', 'd'] (.num 1)))
      ∧ parseLine [] = .ok none ∧ parseLine ['\t', 'd', 'r', 'a', 'i', 'n'] = .error .badLine := ⟨rfl, rfl, rfl⟩
/-- The model's choice (log 19): a busy-wait and another agent's line in one script are refused in either kind of script. -/
theorem test_mixed_script_refused :
    scriptProgram [] [.poll, .drain] = .error .notAClientLine ∧ scriptTurns [] [.poll, .drain] = .error .notOneOperation := ⟨rfl, rfl⟩
theorem test_pset_example : lineWord (.pset 5 7 (.num 0xE0)) = .ok 0x102A7E0#27 := rfl
theorem test_pset_not_wrapped : lineWord (.pset 5 32 (.num 0xE0)) = .error .cellRange := rfl
theorem test_script_p3 : scriptTurns [] [.write (.num 0x0200) (.num 0x01), .named ['v'] (.num 0x02A7), .frame, .clear, .write (.num 0x10) (.name ['v'])]
    = .ok ([.write (.lit 0x0200#16) (.lit 0x01#8), .read (.lit 0x02A7#16) (some ['v']), .write (.lit 0x0010#16) (.named ['v'])],
           [.client, .client, .port 0x3000000#27, .port 0x4000000#27, .client]) := rfl
theorem test_script_name_needs_its_line : scriptProgram [] [.write (.num 0x10) (.name ['v']), .named ['v'] (.num 0)] = .error .unboundName := rfl
theorem test_program_putc : scriptProgram [] [.putc (.num 0x41)]
    = .ok [.write (.lit 0x00FF#16) (.lit 0x41#8), .write (.lit 0x00FE#16) (.lit 0x01#8), .poll] := rfl

/-! Witnesses: a concrete input that meets all the hypotheses of each statement that has any -/

theorem witness_DecodeOfEncodeIsTheOperation : (Instr.rdRam 0xFFFF#16).wf = true ∧ (Instr.wrRam 0x0600#16 0xFF#8).wf = true := by decide
theorem witness_DecodedOperationCarriesTheFields : decode 0x0020055#27 = .ok (.rdFbLow 0x000#9) ∧ decode 0x1FFFFFF#27 = .ok (.wrRam 0xFFFF#16 0xFF#8) :=
  ⟨rfl, rfl⟩
theorem witness_ExactlyTheReservedWordsAreRefused : (∃ e, decode 0x2000001#27 = .error e) ∧ ∃ e, decode 0x7FFFFFF#27 = .error e :=
  ⟨⟨_, rfl⟩, _, rfl⟩
theorem witness_BusWordsFollowTheAddressDecoder : opField 0x0020055#27 = 0b000#3 ∧ opField 0x1FFFFFF#27 = 0b001#3 := by decide
theorem witness_ReadIgnoresItsDataField : opcodeOf (.rdFbHigh 0x1FF#9) = 0b000#3 := by decide
theorem witness_OnlyLegalMapsStart : mapLegal { hardwareMap with fbBase := 0xFFFF#16 } = false
    ∧ mapLegal { hardwareMap with conReady := 0x0200#16 } = false ∧ mapLegal { hardwareMap with conReady := 0x00FF#16 } = false := by decide
theorem witness_OnlyLegalMapsStart_legal : mapLegal hardwareMap = true := by decide
theorem witness_CellsAreRowMajor : 0x0200 ≤ (0x0200#16).toNat ∧ (0x05FF#16).toNat < 0x0600 := by decide
theorem witness_ReadsReturnTheViewedByte : (Instr.rdRam 0x0000#16).wf = true ∧ opcodeOf (.rdRam 0x0000#16) = 0b000#3 := by decide
theorem witness_RdFbReturnsTheCell_low : (5#5).toNat * 32 + (7#5).toNat = (0x0A7#9).toNat := by decide
theorem witness_RdFbReturnsTheCell_high : (31#5).toNat * 32 + (31#5).toNat = 512 + (0x1FF#9).toNat := by decide
theorem witness_RdFbReturnsTheCell_fresh : ∀ k ∈ [Instr.wrFbLow 0x001#9 0x33#8, .wrRam 0x01FF#16 0x44#8, .drain],
    k.wf = true ∧ writesAt k (addressOf (.rdFbLow 0x000#9)) = none := by decide
theorem witness_RdRamReturnsTheRamCell : resolve 0x0600#16 = .ram ∧ ∀ k ∈ [Instr.wrFbHigh 0x1FF#9 0x33#8, .wrRam 0x0601#16 0x44#8],
    k.wf = true ∧ writesAt k 0x0600#16 = none := by decide
theorem witness_WritesChangeOneByte : (Instr.wrRam 0x00FD#16 0x12#8).wf = true ∧ opcodeOf (.wrRam 0x00FD#16 0x12#8) = 0b001#3
    ∧ (oneCell 0x00FD 0x07#8).block.ram.wf = true := by decide
theorem witness_WrCdatSetsData : (console 0x41#8 0xFF#8).block.flag ≠ 0x00#8 := by decide
theorem witness_WrFbSetsOneCell_low : (0#5).toNat * 32 + (0#5).toNat = (0x000#9).toNat ∧ (15#5).toNat * 32 + (31#5).toNat = (0x1FF#9).toNat := by
  decide
theorem witness_WrFbSetsOneCell_high : (16#5).toNat * 32 + (0#5).toNat = 512 + (0x000#9).toNat := by decide
theorem witness_WrRamSetsOneCell : resolve 0x01FF#16 = .ram ∧ (oneCell 0x01FF 0x33#8).block.ram.wf = true := by decide
theorem witness_BusSurfaceIsTheOperations : (0 : Nat) ≠ 1 ∧ (2 : Nat) ≠ 1 := by decide
theorem witness_BusSideEffects : (oneCell 0x0010 0x07#8).block.ram.wf = true ∧ ∀ k ∈ [Instr.frame, .wrCdat 0x01#8, .clear],
    k.wf = true ∧ writesAt k 0x00FE#16 = none := by decide
theorem witness_DrainEmitsThePendingByte : (console 0x48#8 0xFF#8).block.flag ≠ 0x00#8 ∧ (console 0x48#8 0x00#8).block.flag = 0x00#8 := by decide
theorem witness_ConsoleFollowsItsTable : (Instr.wrRam 0x0100#16 0x01#8).wf = true ∧ Instr.wf .drain = true := by decide
theorem witness_PollIterationReadsAndYields : let s := { waiting ⟨.neZero, true, some 0⟩ with turns := [.client] }
    s.hung = false ∧ s.overBudget = false ∧ s.turns = [.client] ∧ s.upcoming = [.poll] := by decide
theorem witness_PollIterationReadsAndYields_in_a_loop : let s := { waiting ⟨.neZero, true, none⟩ with turns := [.client], script := [], loop := [.poll] }
    s.hung = false ∧ s.overBudget = false ∧ s.turns = [.client] ∧ s.upcoming = [.poll] := by decide
theorem witness_UndrivenPortsShowNothing : let s := { waiting ⟨.neZero, false, some 3⟩ with spin := 4 }
    stepped s (·.ports.rdata) = some none ∧ s.overBudget = true := by decide
theorem witness_CooperativeSchedule : let s := { waiting ⟨.neZero, true, none⟩ with yielded := true }
    s.hung = false ∧ s.overBudget = false ∧ s.turns = [] ∧ s.order = .coop ∧ s.yielded = true ∧ s.params.consumerPresent = true := by decide
theorem witness_CooperativeSchedule_free : let s := { waiting ⟨.neZero, true, none⟩ with order := .free }
    s.hung = false ∧ s.overBudget = false ∧ s.turns = [] ∧ s.order = .free := by decide
theorem witness_CooperativeSchedule_client : let s := { waiting ⟨.neZero, false, none⟩ with yielded := true }
    s.hung = false ∧ s.overBudget = false ∧ s.turns = [] ∧ s.order = .coop ∧ s.params.consumerPresent = false := by decide
theorem witness_AbsentConsumerNeverDrains : let s := { waiting ⟨.neZero, false, none⟩ with script := [.write (.lit 0x00FE#16) (.lit 0x00#8)] }
    s.params.consumerPresent = false ∧ s.block.flag ≠ 0x00#8 ∧ stepped s (·.block.flag) = some 0x00#8 := by decide
theorem witness_BusyWaitWithoutConsumerNeverEnds : let s := waiting ⟨.eqOne, false, none⟩
    s.params.consumerPresent = false ∧ s.params.stepBudget = none ∧ s.hung = false ∧ s.upcoming = [.poll]
      ∧ pollContinues s.params.polarity s.block.flag = true ∧ s.turns = [] ∧ s.order = .coop
      ∧ ∀ u ∈ [Turn.client, .port 0x3000000#27, .port 0x4000000#27], u.keepsProtocol = true ∧ u ≠ .port (encode .drain) := by decide
theorem witness_RunsWithAConsumerEnd : let s := waiting ⟨.eqOne, true, none⟩
    s.params.consumerPresent = true ∧ s.loop = [] ∧ s.order = .coop := by decide
theorem witness_PutsDeliversUnderCooperation : let s := { State.reset with script := puts [0x48#8, 0x69#8, 0x0A#8] }
    s.params.consumerPresent = true ∧ s.params.stepBudget = none ∧ s.hung = false ∧ s.yielded = false ∧ s.turns = []
      ∧ s.order = .coop ∧ s.script = puts [0x48#8, 0x69#8, 0x0A#8] ∧ s.loop = [] ∧ s.block.flag = 0x00#8 := by decide
theorem witness_PutsDeliversUnderAnySchedule :
    let s := { State.reset with script := puts [0x48#8], turns := [.client, .port 0x2000000#27, .port 0x3000000#27, .port 0x4000000#27] }
    s.script = puts [0x48#8] ∧ s.loop = [] ∧ s.block.flag = 0x00#8 ∧ s.params.consumerPresent = true ∧ s.params.stepBudget = none
      ∧ s.hung = false ∧ s.order = .coop ∧ ∀ u ∈ s.turns, u.keepsProtocol = true := by decide
theorem witness_PutsDeliversUnderAnySchedule_finite : ∃ t,
    runBy [.client, .client, .client, .port 0x2000000#27, .client] { State.reset with script := puts [0x48#8] } = .next t ∧ t.script = [] :=
  ⟨_, rfl, rfl⟩

/-- An order of one transmission, and FRAMEs for ever after it. -/
def fairOrder : Nat → Turn
  | 0 | 1 | 2 => .client
  | 3 => .port (encode .drain)
  | 4 => .client
  | _ + 5 => .port (encode .frame)

/-- The run of `fairOrder`; a step that stops, which none does, would leave the state as it is. -/
def fairRun : Nat → State
  | 0 => { State.reset with script := puts [0x48#8] }
  | n + 1 =>
    match stepBy (fairOrder n) (fairRun n) with
    | .next t => t
    | .fault _ => fairRun n
    | .refused _ => fairRun n

/-- What the run is from its sixth state on: the program done, the console Idle, a FRAME in every step. -/
theorem fairRun_settles (n : Nat) : (fairRun (n + 5)).script = [] ∧ (fairRun (n + 5)).loop = [] ∧ (fairRun (n + 5)).block.flag = 0x00#8
    ∧ (fairRun (n + 5)).params = Params.chosen ∧ (fairRun (n + 5)).hung = false
    ∧ stepBy (fairOrder (n + 5)) (fairRun (n + 5)) = .next (fairRun (n + 6)) := by
  have one : ∀ m, (fairRun (m + 5)).params = Params.chosen → (fairRun (m + 5)).hung = false →
      stepBy (fairOrder (m + 5)) (fairRun (m + 5)) = .next (({ fairRun (m + 5) with turns := [] } : State).driveFrame (fairRun (m + 5)).block.fb) := by
    intro m hp hh
    simp [fairOrder, stepBy, step, runStep, hh, State.overBudget, hp, Params.chosen, takeTurn, runTurn, present,
      show decode (encode .frame) = .ok .frame from rfl, issuerOf, exec, execFrame, noteIssued]
  have next : ∀ m, (fairRun (m + 5)).params = Params.chosen → (fairRun (m + 5)).hung = false →
      fairRun (m + 6) = (({ fairRun (m + 5) with turns := [] } : State).driveFrame (fairRun (m + 5)).block.fb) := by
    intro m hp hh
    rw [fairRun, one m hp hh]
  induction n with
  | zero => exact ⟨rfl, rfl, rfl, rfl, rfl, by rw [next 0 rfl rfl]; exact one 0 rfl rfl⟩
  | succ n ih =>
    obtain ⟨h1, h2, h3, h4, h5, _⟩ := ih
    have e := next n h4 h5
    have g4 : (fairRun (n + 6)).params = Params.chosen := by rw [e]; exact h4
    have g5 : (fairRun (n + 6)).hung = false := by rw [e]; exact h5
    exact ⟨by rw [show n + 1 + 5 = n + 6 from rfl, e]; exact h1, by rw [show n + 1 + 5 = n + 6 from rfl, e]; exact h2,
      by rw [show n + 1 + 5 = n + 6 from rfl, e]; exact h3, g4, g5, by rw [next (n + 1) g4 g5]; exact one (n + 1) g4 g5⟩

theorem witness_PutsDeliversUnderEveryFairOrder : InfiniteRun fairOrder fairRun ∧ WeaklyFair fairOrder fairRun
    ∧ ClientIsServed fairOrder fairRun ∧ (∀ n, (fairOrder n).keepsProtocol = true) ∧ (fairRun 0).params.consumerPresent = true
    ∧ (fairRun 0).script = puts [0x48#8] ∧ (fairRun 0).loop = [] ∧ (fairRun 0).block.flag = 0x00#8 := by
  refine ⟨fun n => ?_, fun n h => ?_, fun n h => ?_, fun n => ?_, rfl, rfl, rfl, rfl⟩
  · match n with
    | 0 | 1 | 2 | 3 | 4 => rfl
    | m + 5 => exact (fairRun_settles m).2.2.2.2.2
  · exact absurd (fairRun_settles n).2.2.1 (h (n + 5) (by omega))
  · match n with
    | 0 | 1 | 2 | 3 | 4 => exact ⟨4, by omega, rfl⟩
    | m + 5 => exact absurd (by rw [State.upcoming, (fairRun_settles m).1]; exact (fairRun_settles m).2.1) h
  · match n with
    | 0 | 1 | 2 | 3 | 4 => rfl
    | m + 5 => rfl
theorem witness_HostAbortsOverBudget : let s := { waiting ⟨.neZero, false, some 3⟩ with spin := 4 }
    s.hung = false ∧ s.params.stepBudget = some 3 ∧ 3 < s.spin := by decide
theorem witness_HangIsReportedWithinTheBudget : let s := { waiting ⟨.neZero, false, some 3⟩ with spin := 3, waiting := true }
    s.params.consumerPresent = false ∧ s.params.stepBudget = some 3 ∧ s.hung = false ∧ s.upcoming = [.poll]
      ∧ pollContinues s.params.polarity s.block.flag = true ∧ s.spin ≤ 3 ∧ s.turns = [] ∧ s.order = .coop
      ∧ [Turn.port (encode .frame)].count .client = 3 - 3 := by decide
theorem witness_ALoopingClientRunsForEver : let s := { State.reset with loop := [.read (.lit 0x0010#16) (some ['v']), .write (.named ['v']) (.lit 0x01#8)],
                                                                        names := [(['v'], 0x00#8)] }
    s.hung = false ∧ s.params.stepBudget = none ∧ s.turns = [] ∧ s.loop ≠ []
      ∧ ∀ x ∈ s.script ++ s.loop, x.usesOnly (s.names.map Prod.fst) = true := by decide
theorem witness_ALoopingClientRunsForEver_done : step State.reset = .fault .runDone := rfl
theorem witness_FramebufferPersists : (Instr.wrFbLow 0x000#9 0x01#8).wf = true ∧ (Instr.wrFbLow 0x000#9 0x01#8) ≠ .clear
    ∧ (Instr.wrFbLow 0x000#9 0x01#8) ≠ .reset := by decide
theorem witness_hazards : (0x01#8 : Byte) ≠ 0x00#8 ∧ (0xFF#8 : Byte) ≠ 0x00#8 := by decide
theorem witness_ClientClearDropsTheByte : (console 0x41#8 0x01#8).block.flag ≠ 0x00#8 := by decide
theorem witness_DataAndFlagArriveTogether : (∀ i ∈ [Instr.drain, .wrCrdy 0x07#8] ++ [Instr.rdCrdy, .frame],
    i.wf = true ∧ writesAt i 0x00FF#16 = none) ∧ ∀ i ∈ [Instr.rdCrdy, .frame], writesAt i 0x00FE#16 = none := by decide
theorem witness_EveryLegalWordCompletes : decode 0x2000000#27 = .ok .drain := rfl
theorem witness_ReadsSeeTheLastWrite : (∀ i ∈ [Instr.wrRam 0x0010#16 0x07#8, .clear, .reset], i.wf = true)
    ∧ (oneCell 0x0010 0x01#8).block.ram.wf = true := by decide
theorem witness_TheBusViewIsTheState : (oneCell 0xFFFF 0x07#8).block.wf = true ∧ (console 0x01#8 0x02#8).block.wf = true := by decide
theorem witness_EachElementHasItsWriters : after .drain (console 0x48#8 0x01#8) (·.block.out) = some [0x48#8]
    ∧ (console 0x48#8 0x01#8).block.out ≠ [0x48#8] := by decide
theorem witness_StepKeepsTheInvariant : let s := { oneCell 0x0010 0x07#8 with script := [.write (.lit 0x0010#16) (.lit 0x00#8)] }
    s.wf = true ∧ stepped s (·.block.ram) = some [] := by decide
theorem witness_StepKeepsTheInvariant_waiting : { waiting ⟨.eqOne, false, none⟩ with waiting := true, names := [(['v'], 0x01#8)] }.wf = true := by decide
theorem test_wf_refuses_waiting_without_poll : { State.reset with waiting := true }.wf = false := by decide
theorem test_wf_refuses_a_name_twice : { State.reset with names := [(['v'], 0x01#8), (['v'], 0x02#8)] }.wf = false := by decide
theorem witness_OutGrowsOnlyByDrain : stepped { waiting ⟨.neZero, true, none⟩ with yielded := true } (·.block.out) = some [0x41#8] := by decide
theorem witness_StepConsumesInOrder : stepped { State.reset with script := [.read (.lit 0x0010#16) none, .poll], turns := [.client, .client] }
    (fun t => (t.script, t.turns)) = some ([.poll], [.client]) := by decide
theorem witness_StepConsumesInOrder_over_budget : let s := { waiting ⟨.neZero, false, some 3⟩ with spin := 4, turns := [.client] }
    s.overBudget = true ∧ stepped s (·.turns) = some [.client] := by decide
theorem witness_StepRunsTheDecodedOperation : let s := { State.reset with turns := [.port 0x2000000#27] }
    s.hung = false ∧ s.overBudget = false ∧ s.turns = [.port 0x2000000#27] ∧ s.params.consumerPresent = true
      ∧ decode 0x2000000#27 = .ok .drain := ⟨rfl, rfl, rfl, rfl, rfl⟩
theorem witness_StepRunsTheDecodedOperation_client : let s := { waiting ⟨.neZero, false, some 3⟩ with turns := [.port 0x000FE00#27], waiting := true, spin := 3 }
    s.hung = false ∧ s.overBudget = false ∧ s.turns = [.port 0x000FE00#27] ∧ decode 0x000FE00#27 = .ok .rdCrdy
      ∧ issuerOf .rdCrdy = .client := ⟨rfl, rfl, rfl, rfl, rfl⟩
theorem witness_StepRunsTheDecodedOperation_host : let s := { waiting ⟨.neZero, false, some 3⟩ with turns := [.port 0x4000000#27, .client] }
    s.hung = false ∧ s.overBudget = false ∧ s.turns = [.port 0x4000000#27, .client] ∧ decode 0x4000000#27 = .ok .clear := ⟨rfl, rfl, rfl, rfl⟩
theorem witness_StepConsumesInOrder_reset : stepped { waiting ⟨.neZero, false, some 3⟩ with turns := [.port 0x5000000#27, .client] }
    (fun t => (t.script, t.turns)) = some ([.poll], [.client]) := by decide
theorem witness_ClientTurnRunsItsNextItem : let s := { State.reset with turns := [.client], script := [.read (.lit 0xFFFF#16) (some ['v'])] }
    s.hung = false ∧ s.overBudget = false ∧ s.turns = [.client] ∧ s.upcoming = [.read (.lit 0xFFFF#16) (some ['v'])]
      ∧ (ScriptArg.lit 0xFFFF#16).value s.names = some 0xFFFF#16 := by decide
theorem witness_ClientTurnRunsItsNextItem_write :
    let s := { State.reset with turns := [.client], loop := [.write (.lit 0x00FE#16) (.named ['v']), .poll], names := [(['v'], 0x80#8)] }
    s.hung = false ∧ s.overBudget = false ∧ s.turns = [.client] ∧ s.upcoming = [.write (.lit 0x00FE#16) (.named ['v']), .poll]
      ∧ (ScriptArg.named (w := 8) ['v']).value s.names = some 0x80#8 := by decide
theorem witness_ClientTurnRunsItsNextItem_unbound : let s := { State.reset with turns := [.client], script := [.read (.named ['v']) none] }
    s.upcoming = [.read (.named ['v']) none] ∧ (ScriptArg.named (w := 16) ['v']).value s.names = none := by decide
theorem witness_ClientTurnRunsItsNextItem_done : let s := { State.reset with turns := [.client, .port 0x2000000#27] }
    s.hung = false ∧ s.overBudget = false ∧ s.turns = [.client, .port 0x2000000#27] ∧ s.script = [] ∧ s.loop = [] := by decide
theorem witness_StepRunsTheDecodedOperation_absent : let s := { waiting ⟨.neZero, false, none⟩ with turns := [.port 0x2000000#27] }
    s.hung = false ∧ s.overBudget = false ∧ s.turns = [.port 0x2000000#27] ∧ s.params.consumerPresent = false := by decide
theorem witness_PlacedWordRunsNext : decodeTableWord 32 0x2000000 = some .drain := by decide
theorem witness_PseudoOperationsExpand : (31 : Nat) < 32 ∧ (32 : Nat) ≤ 32 := by decide
theorem witness_ScriptNumbersAreNeverTruncated : (0xFFFF : Nat) < 0x10000 ∧ (0xFF : Nat) < 0x100 ∧ (0x10000 : Nat) ≤ 0x10000
    ∧ (0x100 : Nat) ≤ 0x100 := by decide
theorem witness_NamedResultsReachLaterLines :
    let s := { oneCell 0x0010 0x07#8 with script := [.read (.lit 0x0010#16) (some ['v']), .write (.lit 0x0010#16) (.named ['v'])] }
    s.hung = false ∧ s.overBudget = false ∧ s.block.ram.wf = true
      ∧ s.upcoming = [.read (.lit 0x0010#16) (some ['v']), .write (.lit 0x0010#16) (.named ['v'])] ∧ ['w'] ∉ [['v']] := by decide

end Sys2Proof.Tests
end

section
/-! PROOFS. The scope statements (spec 00_scope.md): what a step consumes, which address maps start, and what a presented word does. -/

namespace Sys2Proof.Machine

open Sys2Proof

/-! What a step consumes -/

/-- An operation that completes leaves the parameters, the order, the client's loop and program and the schedule as they were. -/
theorem exec_keeps_schedule {i : Instr} {s t : State} (h : exec i s = .next t) :
    t.params = s.params ∧ t.order = s.order ∧ t.loop = s.loop ∧ t.script = s.script ∧ t.turns = s.turns := by
  rw [exec_agents h]
  exact ⟨rfl, rfl, rfl, rfl, rfl⟩

/-- Settles O54: the step is the abort, which consumes nothing, or an operation, before which the oldest turn has been taken and the
program has gone on by one item at most. -/
theorem stepConsumesInOrder : Obligations.StepConsumesInOrder := by
  intro s t h
  obtain ⟨-, ⟨hb, -, rfl⟩ | ⟨hb, i, s', -, he, hc, htu⟩⟩ := step_cases h
  · simp [hb]
  · obtain ⟨hp, ho, hl, hs, ht⟩ := exec_keeps_schedule he
    refine ⟨hp.trans hc.params, ho.trans hc.order, hl.trans hc.loop, ?_, fun _ => ht.trans htu, fun e => ?_⟩
    · rw [hs]
      exact hc.script
    · rw [hb] at e
      cases e

/-! Which address maps start -/

/-- The legality of a map, R8's conditions through the framebuffer's range (spec 00_scope.md R8). -/
theorem mapLegal_iff (m : AddrMap) : mapLegal m = true ↔
    m.conReady ≠ m.conData ∧ ¬inFramebuffer m m.conReady = true ∧ ¬inFramebuffer m m.conData = true ∧ mapFbEnd m ≤ 0x10000 := by
  simp [mapLegal, and_assoc]

/-- The host refuses an illegal map at launch (spec 00_scope.md R8). -/
theorem launch_of_illegal {m : AddrMap} (l : Load) (h : mapLegal m = false) : launch m l = .refused .illegalConfiguration :=
  if_neg (by simp [h])

/-- The data port is decoded first, in every map (spec 20_memory.md R34). -/
theorem resolveIn_consoleData_iff (m : AddrMap) (a : Address) : resolveIn m a = .consoleData ↔ a = m.conData := by
  unfold resolveIn
  split_ifs with hd <;> simp [hd]

/-- Where the two ports differ, the ready port is decoded whatever stands before it. -/
theorem resolveIn_consoleReady_iff {m : AddrMap} (h : m.conReady ≠ m.conData) (a : Address) :
    resolveIn m a = .consoleReady ↔ a = m.conReady := by
  unfold resolveIn
  split_ifs with hd hr
  · simp [hd, h.symm]
  all_goals simp [hr]

/-- Where neither port lies in the framebuffer's range, that range is decoded whatever stands before it. -/
theorem resolveIn_framebuffer_iff {m : AddrMap} (hr : ¬inFramebuffer m m.conReady = true) (hd : ¬inFramebuffer m m.conData = true)
    (a : Address) : resolveIn m a = .framebuffer ↔ inFramebuffer m a = true := by
  unfold resolveIn
  split_ifs with ed er hf
  · simp [ed, hd]
  · simp [er, hr]
  · simp [hf]
  · simp [hf]

/-- Settles O9: legality is R8's conditions, and they make the decoder's conditions exclude each other. -/
theorem onlyLegalMapsStart : Obligations.OnlyLegalMapsStart := by
  refine ⟨fun m => ?_, fun m l => launch_of_illegal l, by decide, fun m a hm => ?_⟩
  · rw [mapLegal_iff, inFramebuffer_iff, inFramebuffer_iff]
    rfl
  · obtain ⟨hne, hr, hd, -⟩ := (mapLegal_iff m).1 hm
    exact ⟨resolveIn_consoleData_iff m a, resolveIn_consoleReady_iff hne a, resolveIn_framebuffer_iff hr hd a⟩

/-! What a presented word does -/

/-- Where the oldest turn presents a word, the step presents it (spec 00_scope.md R11). -/
theorem step_port {s : State} {w : OpWord} {ts : List Turn} (hh : s.hung = false) (hb : s.overBudget = false)
    (ht : s.turns = .port w :: ts) : step s = present w { s with turns := ts } := by
  rw [step_turn hh hb, takeTurn, ht]
  rfl

/-- A DRAIN presented where there is no consumer is refused (spec 42_console.md R81). -/
theorem present_drain_absent {w : OpWord} {s : State} (hd : decode w = .ok .drain) (hp : s.params.consumerPresent = false) :
    present w s = .refused .consumerAbsent := by
  unfold present
  rw [hd]
  exact if_pos ⟨rfl, hp⟩

/-- Settles O55: the step presents the word, and what is recorded of the operation is its issuer's (spec 30_encoding.md R54). -/
theorem stepRunsTheDecodedOperation : Obligations.StepRunsTheDecodedOperation := by
  intro s w ts i hh hb ht hd
  rw [step_port hh hb ht]
  refine ⟨fun hi => ?client, ?drain, ?absent, ?others⟩
  case client => rw [present_of_decode hd (by simp [hi]), hi, noteIssued_client]
  case drain =>
    rintro rfl hp
    exact present_of_decode hd fun _ => hp
  case absent =>
    rintro rfl hp
    exact present_drain_absent hd hp
  case others =>
    rintro (rfl | rfl | rfl) <;> exact present_of_decode hd nofun

end Sys2Proof.Machine
end

section
/-! PROOFS. The state (spec 10_state.md): what each operation leaves in the block, the invariant every step keeps, the framebuffer's
cells, the Bus's view of the block, the launch values, and one iteration of a busy-wait. -/

namespace Sys2Proof.Machine

open Sys2Proof

/-! What an operation leaves in the block -/

/-- The block after an operation, one row per writer of spec 10_state.md R27. A DRAIN of an Idle console finds FLAG at 0x00 already
(42_console.md R79). -/
def blockAfter (i : Instr) (b : Block) : Block :=
  match i with
  | .rdCdat | .rdCrdy | .rdFbLow _ | .rdFbHigh _ | .rdRam _ | .frame => b
  | .wrCdat v => { b with data := v }
  | .wrCrdy v => { b with flag := v }
  | .wrFbLow x v => { b with fb := cellWrite b.fb (fbLowAddr x) v }
  | .wrFbHigh x v => { b with fb := cellWrite b.fb (fbHighAddr x) v }
  | .wrRam a v => { b with ram := ramWrite b.ram a.toNat v }
  | .drain => { b with flag := 0x00#8, out := if b.flag = 0x00#8 then b.out else b.out ++ [b.data] }
  | .clear => { b with fb := Grid.blank }
  | .reset => Block.launch

/-- Every well-formed operation completes, in every state (spec 60_exceptions.md R92). -/
theorem exec_completes {i : Instr} (hi : i.wf = true) (s : State) :
    ∃ t, exec i s = .next t ∧ t.block = blockAfter i s.block := by
  cases i with
  | drain =>
    by_cases hf : s.block.flag = 0x00#8
    · exact ⟨_, execDrain_idle hf, by simp [blockAfter, ← hf]⟩
    · exact ⟨_, execDrain_pending hf, by simp [blockAfter, hf, State.setFlag, State.emit]⟩
  | rdRam a => exact ⟨_, execRdRam_next (of_decide_eq_true hi), rfl⟩
  | wrRam a v => exact ⟨_, execWrRam_next (of_decide_eq_true hi), rfl⟩
  | _ => exact ⟨_, rfl, rfl⟩

/-- Only a well-formed operation completes: an RD.RAM or WR.RAM term with a device's address is refused. -/
theorem wf_of_exec {i : Instr} {s t : State} (h : exec i s = .next t) : i.wf = true := by
  cases i with
  | rdRam a =>
    by_contra hw
    cases h.symm.trans (if_neg fun e => hw (decide_eq_true e) : execRdRam a s = _)
  | wrRam a v =>
    by_contra hw
    cases h.symm.trans (if_neg fun e => hw (decide_eq_true e) : execWrRam a v s = _)
  | _ => rfl

theorem exec_block {i : Instr} {s t : State} (h : exec i s = .next t) : t.block = blockAfter i s.block := by
  obtain ⟨u, hu, hb⟩ := exec_completes (wf_of_exec h) s
  cases h.symm.trans hu
  exact hb

/-! The writers of each element -/

theorem blockAfter_ram (i : Instr) (b : Block) :
    (blockAfter i b).ram = b.ram ∨ (∃ a v, i = .wrRam a v) ∨ i = .reset := by
  cases i with
  | wrRam a v => exact .inr (.inl ⟨a, v, rfl⟩)
  | reset => exact .inr (.inr rfl)
  | _ => exact .inl rfl

theorem blockAfter_data (i : Instr) (b : Block) :
    (blockAfter i b).data = b.data ∨ (∃ v, i = .wrCdat v) ∨ i = .reset := by
  cases i with
  | wrCdat v => exact .inr (.inl ⟨v, rfl⟩)
  | reset => exact .inr (.inr rfl)
  | _ => exact .inl rfl

theorem blockAfter_flag (i : Instr) (b : Block) :
    (blockAfter i b).flag = b.flag ∨ (∃ v, i = .wrCrdy v) ∨ (i = .drain ∧ (blockAfter i b).flag = 0x00#8) ∨ i = .reset := by
  cases i with
  | wrCrdy v => exact .inr (.inl ⟨v, rfl⟩)
  | drain => exact .inr (.inr (.inl ⟨rfl, rfl⟩))
  | reset => exact .inr (.inr (.inr rfl))
  | _ => exact .inl rfl

theorem blockAfter_fb (i : Instr) (b : Block) :
    (blockAfter i b).fb = b.fb
      ∨ (∃ x v, i = .wrFbLow x v ∧ (blockAfter i b).fb = cellWrite b.fb (fbLowAddr x) v)
      ∨ (∃ x v, i = .wrFbHigh x v ∧ (blockAfter i b).fb = cellWrite b.fb (fbHighAddr x) v)
      ∨ i = .clear ∨ i = .reset := by
  cases i with
  | wrFbLow x v => exact .inr (.inl ⟨x, v, rfl, rfl⟩)
  | wrFbHigh x v => exact .inr (.inr (.inl ⟨x, v, rfl, rfl⟩))
  | clear => exact .inr (.inr (.inr (.inl rfl)))
  | reset => exact .inr (.inr (.inr (.inr rfl)))
  | _ => exact .inl rfl

theorem blockAfter_out (i : Instr) (b : Block) :
    (blockAfter i b).out = b.out
      ∨ (i = .drain ∧ b.flag ≠ 0x00#8 ∧ (blockAfter i b).out = b.out ++ [b.data] ∧ (blockAfter i b).flag = 0x00#8)
      ∨ (i = .reset ∧ (blockAfter i b).out = []) := by
  cases i with
  | drain =>
    by_cases hf : b.flag = 0x00#8
    · exact .inl (if_pos hf)
    · exact .inr (.inl ⟨rfl, hf, if_neg hf, rfl⟩)
  | reset => exact .inr (.inr ⟨rfl, rfl⟩)
  | _ => exact .inl rfl

/-! The invariant (O51, O52) -/

/-- Every well-formed operation keeps RAM canonical and free of device addresses (spec 10_state.md R15). -/
theorem blockAfter_wf {i : Instr} {b : Block} (hi : i.wf = true) (hb : b.wf = true) : (blockAfter i b).wf = true := by
  cases i with
  | wrRam a v =>
    obtain ⟨hc, ho⟩ := Bool.and_eq_true_iff.1 hb
    exact Bool.and_eq_true_iff.2 ⟨ramWrite_wf _ v hc, ramWrite_onlyRam v (of_decide_eq_true hi) ho⟩
  | reset => rfl
  | _ => exact hb

/-- Every operation that completes keeps the invariant: it writes the block only, and leaves the agents as they were. -/
theorem exec_wf {i : Instr} {s t : State} (h : exec i s = .next t) (hs : s.wf = true) : t.wf = true := by
  obtain ⟨hb, hw, hn⟩ := (state_wf_iff s).1 hs
  have hb' : t.block.wf = true := exec_block h ▸ blockAfter_wf (wf_of_exec h) hb
  rw [state_wf_iff, exec_agents h]
  exact ⟨hb', hw, hn⟩

/-- The host's abort touches nothing the invariant speaks of (spec 43_host.md R89). -/
theorem abort_wf {s : State} (hs : s.wf = true) : s.abort.wf = true := hs

/-- Settles O51: a step is the abort, or an operation on a state that keeps the invariant. -/
theorem stepKeepsTheInvariant : Obligations.StepKeepsTheInvariant := by
  intro s t hs h
  obtain ⟨-, ⟨-, -, rfl⟩ | ⟨-, i, s', -, he, hc, -⟩⟩ := step_cases h
  · exact abort_wf hs
  · exact exec_wf he (hc.wf hs)

/-- Settles O52: nothing is listed, entered or named. -/
theorem resetMeetsTheInvariant : Obligations.ResetMeetsTheInvariant :=
  (state_wf_iff _).2 ⟨rfl, nofun, List.nodup_nil⟩

/-! The elements and their writers (O50, O53, O42) -/

/-- Settles O50: an element that changed was not left alone. -/
theorem eachElementHasItsWriters : Obligations.EachElementHasItsWriters := by
  intro i s t h
  rw [exec_block h]
  refine ⟨(blockAfter_ram i _).resolve_left, (blockAfter_data i _).resolve_left, (blockAfter_flag i _).resolve_left,
    (blockAfter_fb i _).resolve_left, fun hne => ?_⟩
  obtain ⟨hi, -, ho, -⟩ | ⟨hi, -⟩ := (blockAfter_out i s.block).resolve_left hne
  · exact .inl ⟨hi, ho⟩
  · exact .inr hi

/-- Settles O53: the abort leaves the block, and the operation `nextOp` names treats `out` as `blockAfter_out` says. -/
theorem outGrowsOnlyByDrain : Obligations.OutGrowsOnlyByDrain := by
  intro s t h
  obtain ⟨-, ⟨-, -, rfl⟩ | ⟨-, i, s', hi, he, hc, -⟩⟩ := step_cases h
  · exact .inl rfl
  · rw [hi, exec_block he, hc.block]
    simpa only [Option.some.injEq] using blockAfter_out i s.block

/-- A write of one cell leaves every other cell as it was (spec 41_bus_write.md R76). -/
theorem gridRead_cellWrite_other (g : Grid) (a : Address) (v : Byte) {r c : BitVec 5}
    (h : ¬(r = cellRow a ∧ c = cellCol a)) : gridRead (cellWrite g a v) r c = gridRead g r c := by
  rw [cellWrite, gridRead_gridWrite, if_neg fun e => h ⟨e.1.symm, e.2.symm⟩]

/-- Settles O42: the grid is left alone, or WR.FB wrote the cell its address names. -/
theorem framebufferPersists : Obligations.FramebufferPersists := by
  intro i s hi hclear hreset
  obtain ⟨t, he, hb⟩ := exec_completes hi s
  refine ⟨t, he, ?_⟩
  rw [hb]
  obtain hsame | ⟨x, v, rfl, hfb⟩ | ⟨x, v, rfl, hfb⟩ | hc | hr := blockAfter_fb i s.block
  · rw [hsame]
    exact ⟨fun _ _ _ => rfl, fun _ => rfl⟩
  · rw [hfb]
    exact ⟨fun _ _ => gridRead_cellWrite_other _ _ _, fun hno => absurd rfl (hno x v).1⟩
  · rw [hfb]
    exact ⟨fun _ _ => gridRead_cellWrite_other _ _ _, fun hno => absurd rfl (hno x v).2⟩
  · exact absurd hc hclear
  · exact absurd hr hreset

/-! The framebuffer's cells by number (O10) -/

/-- row = i[9:5] by number (spec 10_state.md R21). -/
theorem cellRow_toNat {a : Address} (h : resolve a = .framebuffer) : (cellRow a).toNat = (a.toNat - 0x200) / 32 := by
  have hr := (resolve_framebuffer_iff a).1 h
  rw [cellRow, BitVec.extractLsb'_toNat, Nat.shiftRight_eq_div_pow, cellIndex_toNat h]
  omega

/-- col = i[4:0] by number (spec 10_state.md R21). -/
theorem cellCol_toNat {a : Address} (h : resolve a = .framebuffer) : (cellCol a).toNat = (a.toNat - 0x200) % 32 := by
  rw [cellCol, BitVec.extractLsb'_toNat, Nat.shiftRight_zero, cellIndex_toNat h]

/-- FB_BASE + row*32 + col does not wrap (spec 10_state.md R21). -/
theorem cellAddr_toNat (r c : BitVec 5) : (cellAddr r c).toNat = 0x200 + r.toNat * 32 + c.toNat := by
  have hr := r.isLt
  have hc := c.isLt
  simp only [cellAddr, hardwareMap, BitVec.toNat_add, BitVec.toNat_mul, BitVec.toNat_setWidth, BitVec.toNat_ofNat]
  omega

@[simp] theorem resolve_cellAddr (r c : BitVec 5) : resolve (cellAddr r c) = .framebuffer := by
  have hr := r.isLt
  have hc := c.isLt
  rw [resolve_framebuffer_iff, cellAddr_toNat]
  omega

@[simp] theorem cellRow_cellAddr (r c : BitVec 5) : cellRow (cellAddr r c) = r := by
  have hc := c.isLt
  apply BitVec.eq_of_toNat_eq
  rw [cellRow_toNat (resolve_cellAddr r c), cellAddr_toNat]
  omega

@[simp] theorem cellCol_cellAddr (r c : BitVec 5) : cellCol (cellAddr r c) = c := by
  have hc := c.isLt
  apply BitVec.eq_of_toNat_eq
  rw [cellCol_toNat (resolve_cellAddr r c), cellAddr_toNat]
  omega

/-- Settles O10: both mappings by number, and each undoes the other. -/
theorem cellsAreRowMajor : Obligations.CellsAreRowMajor := by
  refine ⟨fun a hlo hhi => ?_, fun r c => ?_⟩
  · have ha := (resolve_framebuffer_iff a).2 ⟨hlo, hhi⟩
    exact ⟨cellRow_toNat ha, cellCol_toNat ha,
      (cell_inj (resolve_cellAddr ..) ha).1 ⟨cellRow_cellAddr .., cellCol_cellAddr ..⟩⟩
  · obtain ⟨-, hhi⟩ := (resolve_framebuffer_iff _).1 (resolve_cellAddr r c)
    exact ⟨cellAddr_toNat r c, hhi, cellRow_cellAddr r c, cellCol_cellAddr r c⟩

/-! The Bus's view of the block (O49) -/

/-- A RAM address that reads other than an unlisted one is listed. -/
theorem mem_of_ramRead_ne {m : Memory} {k : Nat} (h : ramRead m k ≠ unlistedByte) : (k, ramRead m k) ∈ m := by
  induction m with
  | nil => exact absurd rfl h
  | cons c m ih =>
    obtain ⟨j, w⟩ := c
    rw [ramRead_cons] at h ⊢
    split
    · rename_i hj
      subst hj
      exact List.mem_cons_self ..
    · rename_i hj
      rw [if_neg hj] at h
      exact List.mem_cons_of_mem _ (ih h)

/-- RAM that lists no device's address reads, at any address that is not RAM's, as unlisted (spec 10_state.md R15). -/
theorem ramRead_of_not_ram {m : Memory} (hm : m.onlyRam = true) {k : Nat}
    (hk : ¬(k < 0x10000 ∧ resolve (BitVec.ofNat 16 k) = .ram)) : ramRead m k = unlistedByte := by
  by_contra h
  have hc := List.all_eq_true.1 hm _ (mem_of_ramRead_ne h)
  simp only [Bool.and_eq_true, decide_eq_true_eq] at hc
  exact hk hc

/-- The Bus views the grid at the cell's address (spec 10_state.md R21, R28). -/
theorem peek_cellAddr (b : Block) (r c : BitVec 5) : peek b (cellAddr r c) = gridRead b.fb r c := by
  rw [peek_framebuffer (resolve_cellAddr r c), cellRead, cellRow_cellAddr, cellCol_cellAddr]

/-- The Bus views every cell of a canonical RAM, and nothing else is listed. -/
theorem ramRead_eq_of_peek {b c : Block} (hb : b.ram.onlyRam = true) (hc : c.ram.onlyRam = true)
    (h : ∀ a, peek b a = peek c a) (k : Nat) : ramRead b.ram k = ramRead c.ram k := by
  by_cases hk : k < 0x10000 ∧ resolve (BitVec.ofNat 16 k) = .ram
  · obtain ⟨hlt, hram⟩ := hk
    have hv := h (BitVec.ofNat 16 k)
    rwa [peek_ram hram, peek_ram hram, BitVec.toNat_ofNat, Nat.mod_eq_of_lt hlt] at hv
  · rw [ramRead_of_not_ram hb hk, ramRead_of_not_ram hc hk]

/-- Canonical blocks with equal views and equal `out` are equal (spec 10_state.md R28). -/
theorem block_ext_of_peek {b c : Block} (hb : b.wf = true) (hc : c.wf = true) (h : ∀ a, peek b a = peek c a)
    (ho : b.out = c.out) : b = c := by
  obtain ⟨hbw, hbo⟩ := Bool.and_eq_true_iff.1 hb
  obtain ⟨hcw, hco⟩ := Bool.and_eq_true_iff.1 hc
  have hram : b.ram = c.ram := wfFrom_ext hbw hcw (ramRead_eq_of_peek hbo hco h)
  have hdata : b.data = c.data := by simpa only [peek_consoleData resolve_conData] using h 0x00FF#16
  have hflag : b.flag = c.flag := by simpa only [peek_consoleReady resolve_conReady] using h 0x00FE#16
  have hfb : b.fb = c.fb := grid_ext fun row col => by simpa only [peek_cellAddr] using h (cellAddr row col)
  cases b
  cases c
  rw [Block.mk.injEq]
  exact ⟨hram, hdata, hflag, hfb, ho⟩

/-- Settles O49: the two blocks are one. -/
theorem theBusViewIsTheState : Obligations.TheBusViewIsTheState := by
  intro b c hb hc h ho
  obtain rfl := block_ext_of_peek hb hc h ho
  exact ⟨rfl, fun _ _ => rfl⟩

/-! The launch values (O37) -/

/-- This hardware's map starts (spec 00_scope.md R8; 70_reset_and_hazards.md R105). -/
theorem launch_hardwareMap (l : Load) : launch hardwareMap l =
    .next { State.reset with params := l.params, script := l.script, loop := l.loop, turns := l.turns, order := l.order } := rfl

/-- Settles O37: the launch state by element; RESET and launch put the block there. -/
theorem launchValues : Obligations.LaunchValues :=
  ⟨⟨fun _ => rfl, rfl, rfl, rfl, gridRead_blank, rfl, rfl⟩, fun _ => ⟨_, rfl, rfl, rfl⟩,
    fun l => ⟨_, launch_hardwareMap l, rfl, rfl⟩⟩

/-! One iteration of a busy-wait (O26) -/

/-- Where the oldest turn is the client's, the step is the client's turn (spec 00_scope.md R11). -/
theorem step_client {s : State} {ts : List Turn} (hh : s.hung = false) (hb : s.overBudget = false)
    (ht : s.turns = .client :: ts) : step s = clientTurn { s with turns := ts } := by
  rw [step_turn hh hb, takeTurn, ht]
  rfl

theorem pollContinues_eqOne_iff (v : Byte) : pollContinues .eqOne v = true ↔ v = 0x01#8 := decide_eq_true_iff

theorem pollContinues_neZero_iff (v : Byte) : pollContinues .neZero v = true ↔ v ≠ 0x00#8 := decide_eq_true_iff

/-- The two polarities agree on 0x00 and 0x01 alone (spec 42_console.md R85). -/
theorem pollContinues_agree_iff (v : Byte) :
    pollContinues .eqOne v = pollContinues .neZero v ↔ v = 0x00#8 ∨ v = 0x01#8 := by
  rw [Bool.eq_iff_iff, pollContinues_eqOne_iff, pollContinues_neZero_iff]
  by_cases h1 : v = 0x01#8 <;> simp [h1]

/-- Settles O26: the client's turn at a `poll` is `afterPollRead` with FLAG on the read-data port. -/
theorem pollIterationReadsAndYields : Obligations.PollIterationReadsAndYields := by
  refine ⟨fun s ts rest hh hb ht hu => ?_,
    fun v => ⟨pollContinues_eqOne_iff v, pollContinues_neZero_iff v, pollContinues_agree_iff v⟩⟩
  refine ⟨_, (step_client hh hb ht).trans (clientTurn_poll hu), rfl, ?_⟩
  have hspin : (if s.waiting then s.spin else 0) + 1 = if s.waiting then s.spin + 1 else 1 := by
    split <;> rfl
  simp only [afterPollRead, State.driveRdata, hspin]

end Sys2Proof.Machine
end

section
/-! PROOFS. The address map and the Bus (spec 20_memory.md): the regions, what a read and a write do to every view, the last byte written
at an address, the console's two registers in a sequence, and the client's turn at its next item. -/

namespace Sys2Proof.Machine

open Sys2Proof

/-! The regions (O8) -/

/-- Settles O8: `resolve`'s targets by the address's number. -/
theorem addressMapRegions : Obligations.AddressMapRegions := by
  intro a
  refine ⟨?ready, ?data, ?framebuffer, ?ram⟩
  case ready => rw [resolve_consoleReady_iff, ← BitVec.toNat_inj]; rfl
  case data => rw [resolve_consoleData_iff, ← BitVec.toNat_inj]; rfl
  case framebuffer => rw [resolve_framebuffer_iff]; omega
  case ram => rw [resolve_ram_iff]; omega

/-! The operations of the Bus, by their OP -/

/-- Every operation is a READ, a WRITE, or one of the four with no address (spec 30_encoding.md R54). -/
theorem instr_kinds (i : Instr) : opcodeOf i = 0b000#3 ∨ opcodeOf i = 0b001#3
    ∨ i = .drain ∨ i = .frame ∨ i = .clear ∨ i = .reset := by
  cases i <;> simp [opcodeOf]

/-- A READ returns the byte its address views and changes nothing (spec 40_bus_read.md R67). -/
theorem exec_read {i : Instr} (hi : i.wf = true) (ho : opcodeOf i = 0b000#3) (s : State) :
    exec i s = .next (s.driveRdata (peek s.block (addressOf i))) := by
  cases i with
  | rdCdat => rw [addressOf, peek_consoleData resolve_conData]; rfl
  | rdCrdy => rw [addressOf, peek_consoleReady resolve_conReady]; rfl
  | rdFbLow x => rw [addressOf, peek_framebuffer (resolve_fbLowAddr x)]; rfl
  | rdFbHigh x => rw [addressOf, peek_framebuffer (resolve_fbHighAddr x)]; rfl
  | rdRam a =>
    have ha : resolve a = .ram := of_decide_eq_true hi
    rw [addressOf, peek_ram ha]
    exact execRdRam_next ha
  | _ => exact absurd ho (by simp [opcodeOf])

/-- A WRITE is the Bus's write of its byte at its address (spec 41_bus_write.md R72). -/
theorem exec_write {i : Instr} (hi : i.wf = true) (ho : opcodeOf i = 0b001#3) (s : State) :
    exec i s = .next (s.poke (addressOf i) (dataOf i)).quiet := by
  cases i with
  | wrCdat v => rw [addressOf, poke_of_consoleData resolve_conData]; rfl
  | wrCrdy v => rw [addressOf, poke_of_consoleReady resolve_conReady]; rfl
  | wrFbLow x v => rw [addressOf, poke_of_framebuffer (resolve_fbLowAddr x)]; rfl
  | wrFbHigh x v => rw [addressOf, poke_of_framebuffer (resolve_fbHighAddr x)]; rfl
  | wrRam a v =>
    have ha : resolve a = .ram := of_decide_eq_true hi
    rw [addressOf, poke_of_ram ha]
    exact execWrRam_next ha
  | _ => exact absurd ho (by simp [opcodeOf])

/-- A READ writes nowhere. -/
theorem writesAt_read {i : Instr} (ho : opcodeOf i = 0b000#3) (a : Address) : writesAt i a = none := by
  cases i <;> simp [opcodeOf] at ho <;> rfl

/-- A WRITE writes its byte at its address and nowhere else. -/
theorem writesAt_write {i : Instr} (ho : opcodeOf i = 0b001#3) (a : Address) :
    writesAt i a = if a = addressOf i then some (dataOf i) else none := by
  cases i <;> simp [opcodeOf] at ho <;> rfl

/-! The Bus's words -/

/-- The x bits of the framebuffer patterns by number (spec 30_encoding.md R55). -/
theorem toNat_extract_fbField (a : Address) : (a.extractLsb' 0 9).toNat = a.toNat % 512 := by
  rw [BitVec.extractLsb'_toNat, Nat.shiftRight_zero]

theorem fbLowAddr_extract {a : Address} (h : a.toNat / 512 = 1) : fbLowAddr (a.extractLsb' 0 9) = a := by
  apply BitVec.eq_of_toNat_eq
  rw [fbLowAddr_toNat, toNat_extract_fbField]
  omega

theorem fbHighAddr_extract {a : Address} (h : a.toNat / 512 = 2) : fbHighAddr (a.extractLsb' 0 9) = a := by
  apply BitVec.eq_of_toNat_eq
  rw [fbHighAddr_toNat, toNat_extract_fbField]
  omega

/-- What no device's pattern takes is RAM's (spec 30_encoding.md R55; 20_memory.md R34). -/
theorem resolve_ram_of_no_pattern {a : Address} (hd : a.toNat ≠ 0xFF) (hr : a.toNat ≠ 0xFE) (hl : a.toNat / 512 ≠ 1)
    (hh : a.toNat / 512 ≠ 2) : resolve a = .ram := by
  rw [resolve_ram_iff]
  omega

/-- The operation of a READ word is a READ of the word's address (spec 30_encoding.md R55). -/
theorem readInstr_spec (a : Address) :
    (readInstr a).wf = true ∧ opcodeOf (readInstr a) = 0b000#3 ∧ addressOf (readInstr a) = a := by
  unfold readInstr
  split_ifs with hd hr hl hh
  · exact ⟨rfl, rfl, (BitVec.eq_of_toNat_eq hd).symm⟩
  · exact ⟨rfl, rfl, (BitVec.eq_of_toNat_eq hr).symm⟩
  · exact ⟨rfl, rfl, fbLowAddr_extract hl⟩
  · exact ⟨rfl, rfl, fbHighAddr_extract hh⟩
  · exact ⟨decide_eq_true (resolve_ram_of_no_pattern hd hr hl hh), rfl, rfl⟩

/-- The operation of a WRITE word is a WRITE of the word's byte at the word's address (spec 30_encoding.md R55). -/
theorem writeInstr_spec (a : Address) (v : Byte) : (writeInstr a v).wf = true ∧ opcodeOf (writeInstr a v) = 0b001#3
    ∧ addressOf (writeInstr a v) = a ∧ dataOf (writeInstr a v) = v := by
  unfold writeInstr
  split_ifs with hd hr hl hh
  · exact ⟨rfl, rfl, (BitVec.eq_of_toNat_eq hd).symm, rfl⟩
  · exact ⟨rfl, rfl, (BitVec.eq_of_toNat_eq hr).symm, rfl⟩
  · exact ⟨rfl, rfl, fbLowAddr_extract hl, rfl⟩
  · exact ⟨rfl, rfl, fbHighAddr_extract hh, rfl⟩
  · exact ⟨decide_eq_true (resolve_ram_of_no_pattern hd hr hl hh), rfl, rfl, rfl⟩

/-- `read(a)` is the Bus's read of `a` (spec 40_bus_read.md R67). -/
theorem exec_readInstr (a : Address) (s : State) : exec (readInstr a) s = .next (s.driveRdata (peek s.block a)) := by
  obtain ⟨hw, ho, ha⟩ := readInstr_spec a
  rw [exec_read hw ho, ha]

/-- `write(a, v)` is the Bus's write of `v` at `a` (spec 41_bus_write.md R72). -/
theorem exec_writeInstr (a : Address) (v : Byte) (s : State) : exec (writeInstr a v) s = .next (s.poke a v).quiet := by
  obtain ⟨hw, ho, ha, hv⟩ := writeInstr_spec a v
  rw [exec_write hw ho, ha, hv]

/-! What an operation does to every view (O48) -/

@[simp] theorem peek_launch (a : Address) : peek Block.launch a = 0x00#8 := by
  unfold peek
  split
  · rfl
  · rfl
  · exact cellRead_blank a
  · rfl

/-- The consumer's clear of FLAG is seen at 0x00FE and nowhere else (spec 42_console.md R79). -/
theorem peek_blockAfter_drain (b : Block) (a : Address) :
    peek (blockAfter .drain b) a = if a = 0x00FE#16 then 0x00#8 else peek b a := by
  split
  · subst a
    exact peek_consoleReady resolve_conReady
  · rename_i ha
    exact peek_congr (fun _ => rfl) (fun h => absurd ((resolve_consoleReady_iff a).1 h) ha) (fun _ => rfl) (fun _ => rfl)

/-- The host's clear is seen at the framebuffer's addresses and nowhere else (spec 43_host.md R88). -/
theorem peek_blockAfter_clear (b : Block) (a : Address) :
    peek (blockAfter .clear b) a = if 0x0200 ≤ a.toNat ∧ a.toNat < 0x0600 then 0x00#8 else peek b a := by
  split
  · rename_i ha
    exact (peek_framebuffer ((resolve_framebuffer_iff a).2 ha)).trans (cellRead_blank a)
  · rename_i ha
    exact peek_congr (fun _ => rfl) (fun _ => rfl) (fun h => absurd ((resolve_framebuffer_iff a).1 h) ha) (fun _ => rfl)

/-- After an operation an address views the byte the operation wrote there, and as before where it wrote none (spec 20_memory.md R45). -/
theorem peek_exec {i : Instr} {s t : State} (h : exec i s = .next t) (hs : s.block.ram.wf = true) (a : Address) :
    peek t.block a = (writesAt i a).getD (peek s.block a) := by
  have hi := wf_of_exec h
  have hb := exec_block h
  obtain ho | ho | rfl | rfl | rfl | rfl := instr_kinds i
  · cases (exec_read hi ho s).symm.trans h
    rw [writesAt_read ho]
    rfl
  · cases (exec_write hi ho s).symm.trans h
    rw [State.quiet_block, peek_poke _ _ _ _ hs, writesAt_write ho, apply_ite (Option.getD · _)]
    rfl
  · rw [hb, peek_blockAfter_drain, writesAt, apply_ite (Option.getD · _)]
    rfl
  · rw [hb]
    rfl
  · rw [hb, peek_blockAfter_clear, writesAt, apply_ite (Option.getD · _)]
    rfl
  · rw [hb]
    exact peek_launch a

/-- Every operation keeps RAM canonical. -/
theorem exec_ram_wf {i : Instr} {s t : State} (h : exec i s = .next t) (hs : s.block.ram.wf = true) : t.block.ram.wf = true := by
  rw [exec_block h]
  obtain hsame | ⟨a, v, rfl⟩ | rfl := blockAfter_ram i s.block
  · rwa [hsame]
  · exact ramWrite_wf _ v hs
  · rfl

/-! Sequences of operations -/

/-- An operation that completes, in front of a sequence. -/
theorem execAll_cons {i : Instr} {s t : State} (h : exec i s = .next t) (is : List Instr) :
    execAll (i :: is) s = execAll is t := by
  rw [execAll, h]

/-- A sequence after one that completes. -/
theorem execAll_append {is : List Instr} {s t : State} (h : execAll is s = .next t) (js : List Instr) :
    execAll (is ++ js) s = execAll js t := by
  induction is generalizing s with
  | nil => cases h; rfl
  | cons i is ih =>
    cases he : exec i s with
    | next u =>
      rw [execAll_cons he] at h
      rw [List.cons_append, execAll_cons he, ih h]
    | fault f => rw [execAll, he] at h; cases h
    | refused r => rw [execAll, he] at h; cases h

/-- Well-formed operations that each keep `P` complete, one after another, and keep it. -/
theorem execAll_keeps {P : State → Prop} {is : List Instr}
    (h : ∀ i ∈ is, i.wf = true ∧ ∀ s t, exec i s = .next t → P s → P t) {s : State} (hs : P s) :
    ∃ t, execAll is s = .next t ∧ P t := by
  induction is generalizing s with
  | nil => exact ⟨s, rfl, hs⟩
  | cons i is ih =>
    obtain ⟨⟨hi, hstep⟩, hrest⟩ := List.forall_mem_cons.1 h
    obtain ⟨u, hu, -⟩ := exec_completes hi s
    rw [execAll_cons hu]
    exact ih hrest (hstep s u hu hs)

/-- Settles O48: by induction on the sequence, each operation leaving what `writesAt` says at every address. -/
theorem readsSeeTheLastWrite : Obligations.ReadsSeeTheLastWrite := by
  intro is
  induction is with
  | nil => exact fun s _ _ => ⟨s, rfl, fun _ => rfl⟩
  | cons i is ih =>
    intro s hwf hs
    obtain ⟨hi, hrest⟩ := List.forall_mem_cons.1 hwf
    obtain ⟨u, hu, -⟩ := exec_completes hi s
    obtain ⟨t, ht, hv⟩ := ih u hrest (exec_ram_wf hu hs)
    refine ⟨t, (execAll_cons hu is).trans ht, fun a => ?_⟩
    rw [hv, peek_exec hu hs, lastWritten]

/-- Operations that do not write at an address keep its view (spec 20_memory.md R45). -/
theorem execAll_keeps_view {is : List Instr} {a : Address} (h : ∀ k ∈ is, k.wf = true ∧ writesAt k a = none) {s : State}
    (hs : s.block.ram.wf = true) :
    ∃ t, execAll is s = .next t ∧ t.block.ram.wf = true ∧ peek t.block a = peek s.block a := by
  refine execAll_keeps (P := fun t => t.block.ram.wf = true ∧ peek t.block a = peek s.block a) (fun k hk => ?_) ⟨hs, rfl⟩
  obtain ⟨hw, hn⟩ := h k hk
  refine ⟨hw, fun u t he ⟨hu, hv⟩ => ⟨exec_ram_wf he hu, ?_⟩⟩
  rw [peek_exec he hu, hn, Option.getD_none, hv]

/-! The side effects of the Bus (O22) -/

/-- A second write at an address leaves nothing of the first. -/
theorem ramWrite_ramWrite (a : Nat) (v w : Byte) {m : Memory} (hm : m.wf = true) :
    ramWrite (ramWrite m a v) a w = ramWrite m a w := by
  have hv := ramWrite_wf a v hm
  refine wfFrom_ext (ramWrite_wf a w hv) (ramWrite_wf a w hm) fun b => ?_
  rw [ramRead_ramWrite a w hv, ramRead_ramWrite a v hm, ramRead_ramWrite a w hm]
  split <;> rfl

/-- A second write of a cell leaves nothing of the first. -/
theorem cellWrite_cellWrite (g : Grid) (a : Address) (v w : Byte) :
    cellWrite (cellWrite g a v) a w = cellWrite g a w := by
  refine grid_ext fun r c => ?_
  simp only [cellWrite, gridRead_gridWrite]
  split <;> rfl

/-- A second Bus write at an address leaves nothing of the first (spec 20_memory.md R42). -/
theorem poke_poke {s : State} (a : Address) (v w : Byte) (hs : s.block.ram.wf = true) :
    (s.poke a v).poke a w = s.poke a w := by
  cases h : resolve a with
  | consoleData => simp only [poke_of_consoleData h]; rfl
  | consoleReady => simp only [poke_of_consoleReady h]; rfl
  | framebuffer =>
    simp only [poke_of_framebuffer h, State.setCell, cellWrite_cellWrite]
  | ram => simp only [poke_of_ram h, State.setRam, ramWrite_ramWrite _ _ _ hs]

theorem poke_quiet (s : State) (a : Address) (v : Byte) : s.quiet.poke a v = (s.poke a v).quiet := by
  unfold State.poke
  split <;> rfl

/-- A bus write elsewhere than 0x00FE leaves FLAG (spec 20_memory.md R42). -/
theorem poke_flag {s : State} {a : Address} (v : Byte) (ha : a ≠ 0x00FE#16) : (s.poke a v).block.flag = s.block.flag := by
  cases h : resolve a with
  | consoleReady => exact absurd ((resolve_consoleReady_iff a).1 h) ha
  | consoleData => rw [poke_of_consoleData h, State.setData_flag]
  | framebuffer => rw [poke_of_framebuffer h, State.setCell_flag]
  | ram => rw [poke_of_ram h, State.setRam_flag]

/-- Settles O22: a READ drives the viewed byte, which operations between keep; a WRITE is one Bus write, and a second is lost in the
first. -/
theorem busSideEffects : Obligations.BusSideEffects := by
  refine ⟨fun a s is hs hk => ?read, fun a v s hs => ?write⟩
  case read =>
    obtain ⟨u, hu, -, hv⟩ := execAll_keeps_view hk (s := s.driveRdata (peek s.block a)) hs
    exact ⟨readInstr a, _, u, _, decode_read a _, exec_readInstr a s, rfl, hu, exec_readInstr a u, rfl, congrArg some hv, rfl⟩
  case write =>
    refine ⟨writeInstr a v, _, _, decode_write a v, exec_writeInstr a v s, exec_writeInstr a v _,
      fun b => peek_poke s a b v hs, fun hne => ?_, (poke_frame s a v).2, ?_⟩
    · by_contra ha
      exact hne (congrArg consoleState (poke_flag v ha))
    · rw [poke_quiet, poke_poke a v v hs]
      rfl

/-! The console's two registers in a sequence (O46) -/

/-- An operation that does not write at 0x00FF leaves DATA. -/
theorem exec_keeps_data {i : Instr} {s t : State} (h : exec i s = .next t) (hn : writesAt i 0x00FF#16 = none) :
    t.block.data = s.block.data := by
  rw [exec_block h]
  obtain hsame | ⟨v, rfl⟩ | rfl := blockAfter_data i s.block
  · exact hsame
  · cases hn
  · cases hn

/-- An operation that does not write at 0x00FE leaves FLAG. -/
theorem exec_keeps_flag {i : Instr} {s t : State} (h : exec i s = .next t) (hn : writesAt i 0x00FE#16 = none) :
    t.block.flag = s.block.flag := by
  rw [exec_block h]
  obtain hsame | ⟨v, rfl⟩ | ⟨rfl, -⟩ | rfl := blockAfter_flag i s.block
  · exact hsame
  · cases hn
  · cases hn
  · cases hn

/-- A DRAIN of a Pending console emits DATA (spec 42_console.md R79). -/
theorem exec_drain_pending {s : State} (h : s.block.flag ≠ 0x00#8) : ∃ t, exec .drain s = .next t
    ∧ t.block.out = s.block.out ++ [s.block.data] ∧ t.ports.console = some s.block.data :=
  ⟨_, execDrain_pending h, rfl, rfl⟩

/-- Settles O46: DATA stands from its write on, FLAG from its own, and the DRAIN finds both. -/
theorem dataAndFlagArriveTogether : Obligations.DataAndFlagArriveTogether := by
  intro s b v mid tail hv hdata hflag
  obtain ⟨hmid, htail⟩ := List.forall_mem_append.1 hdata
  obtain ⟨p, hp, hpd⟩ := execAll_keeps (P := fun p => p.block.data = b) (s := (s.setData b).quiet)
    (fun i hi => ⟨(hmid i hi).1, fun _ _ he hd => (exec_keeps_data he (hmid i hi).2).trans hd⟩) rfl
  obtain ⟨t, ht, htd, htf⟩ := execAll_keeps (P := fun t => t.block.data = b ∧ t.block.flag = v) (s := (p.setFlag v).quiet)
    (fun i hi => ⟨(htail i hi).1, fun _ _ he ⟨hd, hf⟩ =>
      ⟨(exec_keeps_data he (htail i hi).2).trans hd, (exec_keeps_flag he (hflag i hi)).trans hf⟩⟩) ⟨hpd, rfl⟩
  obtain ⟨u, hu, ho, hc⟩ := exec_drain_pending (s := t) (htf ▸ hv)
  rw [htd] at ho hc
  have hrun : execAll (.wrCdat b :: mid ++ .wrCrdy v :: tail) s = .next t := (execAll_append hp _).trans ht
  exact ⟨t, u, hrun, htf, htd, hu, ho, hc⟩

/-! The client's turn (O56) -/

/-- The client issues every READ and WRITE (spec 30_encoding.md R54). -/
theorem issuerOf_bus {i : Instr} (ho : opcodeOf i = 0b000#3 ∨ opcodeOf i = 0b001#3) : issuerOf i = .client := by
  cases i <;> simp [opcodeOf] at ho <;> rfl

/-- A presented word that decodes to a client operation is carried out, `spin`, the busy-wait and the yield ended (spec 42_console.md
R83). -/
theorem present_client {w : OpWord} {i : Instr} {s : State} (hd : decode w = .ok i) (hi : issuerOf i = .client) :
    present w s = exec i { s with spin := 0, waiting := false, yielded := false } := by
  rw [present_of_decode hd (by simp [hi]), hi, noteIssued_client]

/-- The client at a read whose address has a value (spec 30_encoding.md R62). -/
theorem clientTurn_read {s : State} {a : ScriptArg 16} {name : Option Name} {rest : List ScriptItem} {a' : Address}
    (hu : s.upcoming = .read a name :: rest) (ha : a.value s.names = some a') :
    clientTurn s = present (readWord a') { s with script := rest, names := bindResult name (peek s.block a') s.names } := by
  simp only [clientTurn, hu, ha]

/-- The client at a write whose address and byte have values (spec 30_encoding.md R62). -/
theorem clientTurn_write {s : State} {a : ScriptArg 16} {v : ScriptArg 8} {rest : List ScriptItem} {a' : Address} {v' : Byte}
    (hu : s.upcoming = .write a v :: rest) (ha : a.value s.names = some a') (hv : v.value s.names = some v') :
    clientTurn s = present (writeWord a' v') { s with script := rest } := by
  simp only [clientTurn, hu, ha, hv]

/-- The client at a read of a name no result has (log 13). -/
theorem clientTurn_read_unbound {s : State} {a : ScriptArg 16} {name : Option Name} {rest : List ScriptItem}
    (hu : s.upcoming = .read a name :: rest) (ha : a.value s.names = none) : clientTurn s = .refused .unboundName := by
  simp only [clientTurn, hu, ha]

/-- The client at a write with a name no result has, in either place (log 13). -/
theorem clientTurn_write_unbound {s : State} {a : ScriptArg 16} {v : ScriptArg 8} {rest : List ScriptItem}
    (hu : s.upcoming = .write a v :: rest) (h : a.value s.names = none ∨ v.value s.names = none) :
    clientTurn s = .refused .unboundName := by
  simp only [clientTurn, hu]
  split
  · rename_i ha hv
    rw [ha, hv] at h
    obtain h | h := h <;> cases h
  · rfl

/-- The client with no operation left, now or later (spec 43_host.md R90). -/
theorem clientTurn_done {s : State} (hs : s.script = []) (hl : s.loop = []) : clientTurn s = .fault .runDone := by
  simp only [clientTurn, State.upcoming, hs, hl]

/-- Settles O56: the client's turn by the item at the head of what is to come. -/
theorem clientTurnRunsItsNextItem : Obligations.ClientTurnRunsItsNextItem := by
  intro s ts rest hh hb ht
  rw [step_client hh hb ht]
  refine ⟨?read, ?write, ?readUnbound, ?writeUnbound, ?done⟩
  case read =>
    intro a name a' hu ha
    have hd : decode (readWord a') = .ok (readInstr a') := decode_read a' _
    obtain ⟨-, ho, -⟩ := readInstr_spec a'
    exact ⟨_, hd, (clientTurn_read (s := { s with turns := ts }) hu ha).trans (present_client hd (issuerOf_bus (.inl ho)))⟩
  case write =>
    intro a v a' v' hu ha hv
    have hd : decode (writeWord a' v') = .ok (writeInstr a' v') := decode_write a' v'
    obtain ⟨-, ho, -⟩ := writeInstr_spec a' v'
    exact ⟨_, hd, (clientTurn_write (s := { s with turns := ts }) hu ha hv).trans (present_client hd (issuerOf_bus (.inr ho)))⟩
  case readUnbound => exact fun a name hu ha => clientTurn_read_unbound hu ha
  case writeUnbound => exact fun a v hu h => clientTurn_write_unbound hu h
  case done => exact fun hs hl => clientTurn_done hs hl

end Sys2Proof.Machine
end

section
/-! PROOFS. The operation word (spec 30_encoding.md): its fields, the decoder and the encoder against each other, the ports a step does not
drive, a placed word, and the lines of a script. -/

namespace Sys2Proof.Machine

open Sys2Proof

/-! Decoding the word of an operation (O1, O7) -/

theorem extract_fbLowAddr (x : BitVec 9) : (fbLowAddr x).extractLsb' 0 9 = x := by
  apply BitVec.eq_of_toNat_eq
  rw [toNat_extract_fbField, fbLowAddr_toNat]
  omega

theorem extract_fbHighAddr (x : BitVec 9) : (fbHighAddr x).extractLsb' 0 9 = x := by
  apply BitVec.eq_of_toNat_eq
  rw [toNat_extract_fbField, fbHighAddr_toNat]
  omega

/-- An address of the low pattern selects that pattern's READ and WRITE (spec 30_encoding.md R55). -/
theorem select_fbLowAddr (x : BitVec 9) (v : Byte) :
    readInstr (fbLowAddr x) = .rdFbLow x ∧ writeInstr (fbLowAddr x) v = .wrFbLow x v := by
  obtain ⟨hd, hr, hl⟩ : (fbLowAddr x).toNat ≠ 0xFF ∧ (fbLowAddr x).toNat ≠ 0xFE ∧ (fbLowAddr x).toNat / 512 = 1 := by
    rw [fbLowAddr_toNat]
    omega
  simp [readInstr, writeInstr, hd, hr, hl, extract_fbLowAddr]

/-- An address of the high pattern selects that pattern's READ and WRITE (spec 30_encoding.md R55). -/
theorem select_fbHighAddr (x : BitVec 9) (v : Byte) :
    readInstr (fbHighAddr x) = .rdFbHigh x ∧ writeInstr (fbHighAddr x) v = .wrFbHigh x v := by
  obtain ⟨hd, hr, hh⟩ : (fbHighAddr x).toNat ≠ 0xFF ∧ (fbHighAddr x).toNat ≠ 0xFE ∧ (fbHighAddr x).toNat / 512 = 2 := by
    rw [fbHighAddr_toNat]
    omega
  simp [readInstr, writeInstr, hd, hr, hh, extract_fbHighAddr]

/-- A RAM address is in no device's pattern, and selects RAM's READ and WRITE (spec 30_encoding.md R55, R56). -/
theorem select_ram {a : Address} (ha : resolve a = .ram) (v : Byte) :
    readInstr a = .rdRam a ∧ writeInstr a v = .wrRam a v := by
  obtain ⟨hd, hr, hl, hh⟩ : a.toNat ≠ 0xFF ∧ a.toNat ≠ 0xFE ∧ a.toNat / 512 ≠ 1 ∧ a.toNat / 512 ≠ 2 := by
    rw [resolve_ram_iff] at ha
    omega
  simp [readInstr, writeInstr, hd, hr, hl, hh]

/-- A well-formed READ is the one its address selects (spec 30_encoding.md R55). -/
theorem readInstr_addressOf {i : Instr} (hi : i.wf = true) (ho : opcodeOf i = 0b000#3) : readInstr (addressOf i) = i := by
  cases i with
  | rdCdat => rfl
  | rdCrdy => rfl
  | rdFbLow x => exact (select_fbLowAddr x 0).1
  | rdFbHigh x => exact (select_fbHighAddr x 0).1
  | rdRam a => exact (select_ram (of_decide_eq_true hi) 0).1
  | _ => exact absurd ho (by simp [opcodeOf])

/-- A well-formed WRITE is the one its address and byte select (spec 30_encoding.md R55). -/
theorem writeInstr_addressOf {i : Instr} (hi : i.wf = true) (ho : opcodeOf i = 0b001#3) :
    writeInstr (addressOf i) (dataOf i) = i := by
  cases i with
  | wrCdat v => rfl
  | wrCrdy v => rfl
  | wrFbLow x v => exact (select_fbLowAddr x v).2
  | wrFbHigh x v => exact (select_fbHighAddr x v).2
  | wrRam a v => exact (select_ram (of_decide_eq_true hi) v).2
  | _ => exact absurd ho (by simp [opcodeOf])

/-- Settles O1: a READ or WRITE is the one its address selects, and the other four have one word each. -/
theorem decodeOfEncodeIsTheOperation : Obligations.DecodeOfEncodeIsTheOperation := by
  intro i hi
  obtain ho | ho | rfl | rfl | rfl | rfl := instr_kinds i
  · rw [encode, ho, decode_read, readInstr_addressOf hi ho]
  · rw [encode, ho, decode_write, writeInstr_addressOf hi ho]
  all_goals decide

/-- A word written out decodes to the well-formed operation it is the word of (spec 30_encoding.md R57). -/
theorem decode_of_encode_eq {w : OpWord} {i : Instr} (hw : encode i = w) (hi : i.wf = true) : decode w = .ok i :=
  hw ▸ decodeOfEncodeIsTheOperation i hi

/-- Settles O7: each word is the word of its operation, which is well-formed. -/
theorem listedWordsDecode : Obligations.ListedWordsDecode := by
  unfold Obligations.ListedWordsDecode
  and_intros <;> exact decode_of_encode_eq rfl rfl

/-! The fields of a decoded word (O2, O3) -/

/-- The eight values of OP (spec 30_encoding.md R54). -/
theorem opField_cases (o : BitVec 3) : o = 0 ∨ o = 1 ∨ o = 2 ∨ o = 3 ∨ o = 4 ∨ o = 5 ∨ o = 6 ∨ o = 7 := by
  revert o
  decide

/-- A READ has no byte (spec 30_encoding.md R59). -/
theorem dataOf_read {i : Instr} (ho : opcodeOf i = 0b000#3) : dataOf i = 0x00#8 := by
  cases i <;> simp [opcodeOf] at ho <;> rfl

/-- A word whose operand fields are zero is its OP's (spec 30_encoding.md R53). -/
theorem eq_opWord_of_operands_zero {w : OpWord} {op : BitVec 3} (ho : opField w = op)
    (hz : addrField w = 0 ∧ dataField w = 0) : w = opWord op 0 0 := by
  rw [← ho, ← hz.1, ← hz.2, opWord_fields]

/-- A word that decodes is a READ, a WRITE, or the one word of an operation with no address (spec 30_encoding.md R55). -/
theorem decode_ok_cases {w : OpWord} {i : Instr} (h : decode w = .ok i) :
    (opField w = 0b000#3 ∧ i = readInstr (addrField w))
      ∨ (opField w = 0b001#3 ∧ i = writeInstr (addrField w) (dataField w))
      ∨ ((i = .drain ∨ i = .frame ∨ i = .clear ∨ i = .reset) ∧ w = encode i) := by
  rw [decode_fields] at h
  split_ifs at h with h0 h1 hr hz h2 h3 h4 <;> cases h
  · exact .inl ⟨h0, rfl⟩
  · exact .inr (.inl ⟨h1, rfl⟩)
  · exact .inr (.inr ⟨.inl rfl, eq_opWord_of_operands_zero h2 hz⟩)
  · exact .inr (.inr ⟨.inr (.inl rfl), eq_opWord_of_operands_zero h3 hz⟩)
  · exact .inr (.inr ⟨.inr (.inr (.inl rfl)), eq_opWord_of_operands_zero h4 hz⟩)
  · have h5 : opField w = 5 := by
      have := opField_cases (opField w)
      tauto
    exact .inr (.inr ⟨.inr (.inr (.inr rfl)), eq_opWord_of_operands_zero h5 hz⟩)

/-- Settles O2: `readInstr` and `writeInstr` carry their fields, and the other words are their operation's own. -/
theorem decodedOperationCarriesTheFields : Obligations.DecodedOperationCarriesTheFields := by
  intro w i h
  obtain ⟨ho, rfl⟩ | ⟨ho, rfl⟩ | ⟨hi, rfl⟩ := decode_ok_cases h
  · obtain ⟨hw, hop, ha⟩ := readInstr_spec (addrField w)
    exact ⟨hw, hop.trans ho.symm, ha, by rw [if_pos ho, dataOf_read hop]⟩
  · obtain ⟨hw, hop, ha, hv⟩ := writeInstr_spec (addrField w) (dataField w)
    exact ⟨hw, hop.trans ho.symm, ha, by rw [if_neg (by simp [ho]), hv]⟩
  · obtain rfl | rfl | rfl | rfl := hi <;> decide

/-- Settles O3: the word by its fields' numbers, and each field as its bits. -/
theorem wordFieldsByNumber : Obligations.WordFieldsByNumber := by
  refine ⟨opWord_toNat, fun w => ?_⟩
  have hw := w.isLt
  simp only [opField, addrField, dataField, BitVec.extractLsb'_toNat, Nat.shiftRight_eq_div_pow, true_and]
  omega

/-! The words refused (O4) -/

/-- A word is refused by its OP, or by an operand where its OP takes none (spec 30_encoding.md R60). -/
theorem decode_error_iff (w : OpWord) : (∃ e, decode w = .error e) ↔
    opField w = 0b110#3 ∨ opField w = 0b111#3
      ∨ ((opField w = 0b010#3 ∨ opField w = 0b011#3 ∨ opField w = 0b100#3 ∨ opField w = 0b101#3)
          ∧ (addrField w ≠ 0#16 ∨ dataField w ≠ 0#8)) := by
  rw [decode_fields, ← not_and_or]
  by_cases hz : addrField w = 0#16 ∧ dataField w = 0#8
  all_goals obtain h | h | h | h | h | h | h | h := opField_cases (opField w) <;> simp [h, hz]

/-- A word that spells no operation is refused by name (spec 30_encoding.md R60). -/
theorem present_of_decode_error {w : OpWord} {e : DecodeError} (hd : decode w = .error e) (s : State) :
    present w s = .refused .reservedOp := by
  simp only [present, hd]

/-- Settles O4: the decoder's errors by the word's fields. -/
theorem exactlyTheReservedWordsAreRefused : Obligations.ExactlyTheReservedWordsAreRefused :=
  fun w => ⟨decode_error_iff w, fun ⟨_, hd⟩ s => present_of_decode_error hd s⟩

/-! The Bus's words (O5, O6) -/

/-- A well-formed READ or WRITE is on the target its address resolves to (spec 30_encoding.md R55; 20_memory.md R34). -/
theorem targetOf_bus {i : Instr} (hi : i.wf = true) (ho : opcodeOf i = 0b000#3 ∨ opcodeOf i = 0b001#3) :
    targetOf i = some (resolve (addressOf i)) := by
  cases i with
  | rdCdat => exact congrArg some resolve_conData.symm
  | wrCdat v => exact congrArg some resolve_conData.symm
  | rdCrdy => exact congrArg some resolve_conReady.symm
  | wrCrdy v => exact congrArg some resolve_conReady.symm
  | rdFbLow x => exact congrArg some (resolve_fbLowAddr x).symm
  | wrFbLow x v => exact congrArg some (resolve_fbLowAddr x).symm
  | rdFbHigh x => exact congrArg some (resolve_fbHighAddr x).symm
  | wrFbHigh x v => exact congrArg some (resolve_fbHighAddr x).symm
  | rdRam a => exact congrArg some (of_decide_eq_true hi).symm
  | wrRam a v => exact congrArg some (of_decide_eq_true hi).symm
  | _ => simp [opcodeOf] at ho

/-- Settles O5: the word is a READ or WRITE of its ADDR, and decodes to the one that address selects. -/
theorem busWordsFollowTheAddressDecoder : Obligations.BusWordsFollowTheAddressDecoder := by
  intro w ho
  rw [← opWord_fields w, addrField_opWord]
  obtain ho | ho := ho <;> rw [ho]
  · obtain ⟨hw, hop, ha⟩ := readInstr_spec (addrField w)
    exact ⟨_, decode_read .., (targetOf_bus hw (.inl hop)).trans (by rw [ha])⟩
  · obtain ⟨hw, hop, ha, -⟩ := writeInstr_spec (addrField w) (dataField w)
    exact ⟨_, decode_write .., (targetOf_bus hw (.inr hop)).trans (by rw [ha])⟩

/-- What a presented word does is what it decodes to. -/
theorem present_congr {w w' : OpWord} (h : decode w = decode w') (s : State) : present w s = present w' s := by
  simp only [present, h]

/-- Settles O6: both words decode to the same READ, and a READ's word has its 0x00. -/
theorem readIgnoresItsDataField : Obligations.ReadIgnoresItsDataField :=
  ⟨fun a d s => present_congr ((decode_read a d).trans (decode_read a _).symm) s,
    fun _ ho => (dataField_opWord ..).trans (dataOf_read ho)⟩

/-! The ports (O23) -/

/-- A quiet step shows nothing on any port (log 5). -/
theorem undriven_quiet {p q r : Prop} (s : State) : (p → s.quiet.ports.rdata = none) ∧ (q → s.quiet.ports.console = none)
    ∧ (r → s.quiet.ports.frame = none) :=
  ⟨fun _ => rfl, fun _ => rfl, fun _ => rfl⟩

/-- Settles O23: by the operation's kind, each of which drives its own port and no other; the abort drives none. -/
theorem undrivenPortsShowNothing : Obligations.UndrivenPortsShowNothing := by
  refine ⟨fun i s t h => ?_, rfl, fun s t h hb => ?abort⟩
  · have hi := wf_of_exec h
    obtain ho | ho | rfl | rfl | rfl | rfl := instr_kinds i
    · cases (exec_read hi ho s).symm.trans h
      exact ⟨fun hn => absurd ho hn, fun _ => rfl, fun _ => rfl⟩
    · cases (exec_write hi ho s).symm.trans h
      exact undriven_quiet _
    · by_cases hf : s.block.flag = 0x00#8
      · cases (execDrain_idle hf).symm.trans h
        exact undriven_quiet _
      · cases (execDrain_pending hf).symm.trans h
        exact ⟨fun _ => rfl, fun hn => absurd hf (by simpa using hn), fun _ => rfl⟩
    · cases h
      exact ⟨fun _ => rfl, fun _ => rfl, fun hn => absurd rfl hn⟩
    · cases h
      exact undriven_quiet _
    · cases h
      exact undriven_quiet _
  case abort =>
    obtain ⟨-, ⟨-, -, rfl⟩ | ⟨hb', -⟩⟩ := step_cases h
    · exact s.abort_ports
    · cases hb.symm.trans hb'

/-! A placed word (O57) -/

/-- A placed DRAIN has its consumer (log 6). -/
theorem placeWord_consumer {w : OpWord} {i : Instr} (hd : decode w = .ok i) (hi : issuerOf i = .consumer) (s : State) :
    (placeWord w s).params.consumerPresent = true := by
  obtain ⟨-, rfl⟩ | ⟨-, rfl⟩ | ⟨h, rfl⟩ := decode_ok_cases hd
  · obtain ⟨-, ho, -⟩ := readInstr_spec (addrField w)
    cases hi.symm.trans (issuerOf_bus (.inl ho))
  · obtain ⟨-, ho, -⟩ := writeInstr_spec (addrField w) (dataField w)
    cases hi.symm.trans (issuerOf_bus (.inr ho))
  · obtain rfl | rfl | rfl | rfl := h
    · simp
    all_goals cases hi

/-- A number the table reads is a word that decodes (spec 30_encoding.md R61). -/
theorem decodeTableWord_some {n w : Nat} {i : Instr} (h : decodeTableWord n w = some i) :
    w < 2 ^ 27 ∧ decode (BitVec.ofNat 27 w) = .ok i := by
  unfold decodeTableWord at h
  split at h
  · rename_i hw
    split at h <;> cases h
    exact ⟨hw, ‹_›⟩
  · cases h

/-- Settles O57: the placed word is the oldest turn, and nothing stops the step from presenting it. -/
theorem placedWordRunsNext : Obligations.PlacedWordRunsNext := by
  intro s n w i h
  obtain ⟨hw, hd⟩ := decodeTableWord_some h
  rw [State.withFetchWord, if_pos hw]
  exact ⟨_, (step_port (placeWord_hung _ s) (placeWord_overBudget _ s) (placeWord_turns _ s)).trans
    (present_of_decode hd fun hi => placeWord_consumer hd hi s), by simp, by simp, by simp⟩

/-! A named result (O59) -/

/-- A turn given to the client is the client's turn (spec 42_console.md R82). -/
theorem stepBy_client {s : State} (hh : s.hung = false) (hb : s.overBudget = false) :
    stepBy .client s = clientTurn { s with turns := [] } :=
  step_client (s := { s with turns := [.client] }) hh hb rfl

/-- The client's read takes its byte to the read-data port and to its name (spec 30_encoding.md R62). -/
theorem clientTurn_read_next {s : State} {a : ScriptArg 16} {name : Option Name} {rest : List ScriptItem} {a' : Address}
    (hu : s.upcoming = .read a name :: rest) (ha : a.value s.names = some a') :
    clientTurn s = .next ((noteIssued .client
      { s with script := rest, names := bindResult name (peek s.block a') s.names }).driveRdata (peek s.block a')) := by
  obtain ⟨-, ho, -⟩ := readInstr_spec a'
  rw [clientTurn_read hu ha, readWord, present_client (decode_read a' _) (issuerOf_bus (.inl ho)), exec_readInstr]
  rfl

/-- The client's write is the Bus's write of its byte at its address (spec 30_encoding.md R62). -/
theorem clientTurn_write_next {s : State} {a : ScriptArg 16} {v : ScriptArg 8} {rest : List ScriptItem} {a' : Address} {v' : Byte}
    (hu : s.upcoming = .write a v :: rest) (ha : a.value s.names = some a') (hv : v.value s.names = some v') :
    clientTurn s = .next ((noteIssued .client { s with script := rest }).poke a' v').quiet := by
  obtain ⟨-, ho, -⟩ := writeInstr_spec a' v'
  rw [clientTurn_write hu ha hv, writeWord, present_client (decode_write a' v') (issuerOf_bus (.inr ho)), exec_writeInstr]
  rfl

/-- A client operation leaves no count over any budget (spec 42_console.md R83). -/
theorem overBudget_of_spin_zero {s : State} (h : s.spin = 0) : s.overBudget = false :=
  (overBudget_eq_false_iff s).2 fun n _ => h ▸ Nat.zero_le n

@[simp] theorem State.poke_names (s : State) (a : Address) (v : Byte) : (s.poke a v).names = s.names := by
  rw [(poke_frame s a v).1]

@[simp] theorem State.poke_script (s : State) (a : Address) (v : Byte) : (s.poke a v).script = s.script := by
  rw [(poke_frame s a v).1]

/-- In the place of a DATA a name just bound is its byte (spec 30_encoding.md R62; log 13). -/
theorem value_named_bindName (n : Name) (v : Byte) (ns : List (Name × Byte)) :
    (ScriptArg.named n).value (bindName n v ns) = some v := by
  rw [ScriptArg.value, nameValue_bindName, if_pos rfl, Option.map_some, BitVec.setWidth_eq]

/-- Two client turns at `name <- read(a)` and `write(b, name)` (spec 30_encoding.md R62). -/
theorem named_read_then_write {s : State} {n : Name} {a b : Address} {rest : List ScriptItem} (hh : s.hung = false)
    (hb : s.overBudget = false) (hw : s.block.ram.wf = true)
    (hu : s.upcoming = .read (.lit a) (some n) :: .write (.lit b) (.named n) :: rest) :
    ∃ t u, stepBy .client s = .next t ∧ stepBy .client t = .next u ∧ t.block = s.block
      ∧ t.ports.rdata = some (peek s.block a) ∧ t.names = bindName n (peek s.block a) s.names
      ∧ u.names = t.names ∧ u.script = rest ∧ ∀ c, peek u.block c = if c = b then peek s.block a else peek s.block c := by
  refine ⟨_, _, (stepBy_client hh hb).trans (clientTurn_read_next (s := { s with turns := [] }) hu rfl),
    (stepBy_client (by exact hh) (overBudget_of_spin_zero rfl)).trans (clientTurn_write_next rfl rfl (value_named_bindName n _ _)),
    rfl, rfl, rfl, ?_, ?_, fun c => ?_⟩
  · exact State.poke_names ..
  · exact State.poke_script ..
  · exact peek_poke _ b c _ hw

/-! The numbers of a line (O58, O59, O60) -/

theorem scriptAddr_of_lt {a : Nat} (h : a < 0x10000) : scriptAddr a = .ok (BitVec.ofNat 16 a) := if_pos h

theorem scriptAddr_of_ge {a : Nat} (h : 0x10000 ≤ a) : scriptAddr a = .error .addrRange := if_neg (Nat.not_lt.2 h)

theorem scriptData_of_lt {v : Nat} (h : v < 0x100) : scriptData v = .ok (BitVec.ofNat 8 v) := if_pos h

theorem scriptData_of_ge {v : Nat} (h : 0x100 ≤ v) : scriptData v = .error .dataRange := if_neg (Nat.not_lt.2 h)

/-- The number of a byte is that byte again. -/
@[simp] theorem scriptData_toNat (b : Byte) : scriptData b.toNat = .ok b := by
  rw [scriptData_of_lt b.isLt, BitVec.ofNat_toNat, BitVec.setWidth_eq]

/-- A row and column below 32 are the ADDR 0x0200 + 32*r + c (spec 30_encoding.md R65). -/
theorem scriptCell_of_lt {r c : Nat} (hr : r < 32) (hc : c < 32) : scriptCell r c = scriptAddr (0x0200 + 32 * r + c) := by
  rw [scriptCell, if_pos ⟨hr, hc⟩, scriptAddr_of_lt (by omega)]

theorem scriptCell_of_ge {r c : Nat} (h : 32 ≤ r ∨ 32 ≤ c) : scriptCell r c = .error .cellRange :=
  if_neg (by omega)

@[simp] theorem scriptNum_num {w : Nat} (check : Nat → Except ScriptError (BitVec w)) (k : Nat) :
    scriptNum check (.num k) = check k := rfl

@[simp] theorem scriptArg_num {w : Nat} (check : Nat → Except ScriptError (BitVec w)) (bound : List Name) (k : Nat) :
    scriptArg check bound (.num k) = (check k).map .lit := rfl

theorem scriptArg_name_of_mem {w : Nat} (check : Nat → Except ScriptError (BitVec w)) {bound : List Name} {n : Name}
    (h : n ∈ bound) : scriptArg check bound (.name n) = .ok (.named n) := if_pos h

theorem scriptArg_name_of_not_mem {w : Nat} (check : Nat → Except ScriptError (BitVec w)) {bound : List Name} {n : Name}
    (h : n ∉ bound) : scriptArg check bound (.name n) = .error .unboundName := if_neg h

@[simp] theorem both_ok {α β γ : Type} (f : α → β → γ) (x : α) (y : β) : both f (.ok x) (.ok y) = .ok (f x y) := rfl

@[simp] theorem both_error_left {α β γ : Type} (f : α → β → γ) (e : ScriptError) (y : Except ScriptError β) :
    both f (.error e) y = .error e := rfl

@[simp] theorem both_error_right {α β γ : Type} (f : α → β → γ) (x : α) (e : ScriptError) :
    both f (.ok x) (.error e) = .error e := rfl

@[simp] theorem both_map_left {α α' β γ : Type} (f : α' → β → γ) (g : α → α') (x : Except ScriptError α)
    (y : Except ScriptError β) : both f (x.map g) y = both (fun a b => f (g a) b) x y := by
  cases x <;> cases y <;> rfl

theorem except_map_map {ε α β γ : Type} (g : β → γ) (f : α → β) (x : Except ε α) :
    (x.map f).map g = x.map fun a => g (f a) := by
  cases x <;> rfl

/-- Settles O59: the two client turns, with `bindName` saying what each name stands for; then the transcriber's operands. -/
theorem namedResultsReachLaterLines : Obligations.NamedResultsReachLaterLines := by
  refine ⟨fun s n a b rest hh hb hw hu => ?_, fun n a b bound ha hb => ?_, fun n b bound hb hn => ?_⟩
  · obtain ⟨t, u, ht, hu, hblock, hrdata, hnames, hrest⟩ := named_read_then_write hh hb hw hu
    refine ⟨t, u, ht, hu, hblock, hrdata, ?_, fun m hm => ?_, hrest⟩
    · rw [hnames, hrdata, nameValue_bindName, if_pos rfl]
    · rw [hnames, nameValue_bindName, if_neg hm]
  · have hn : n ∈ n :: bound := List.mem_cons_self
    simp [scriptProgram, lineItems, lineNames, scriptAddr_of_lt ha, scriptAddr_of_lt hb, scriptArg_name_of_mem _ hn, Except.map]
  · simp [lineItems, scriptAddr_of_lt hb, scriptArg_name_of_not_mem _ hn, Except.map]

/-! The pseudo-operations (O58) -/

/-- The bytes of a longer string are the operations of its parts in order (spec 30_encoding.md R66). -/
theorem puts_append (bs cs : List Byte) : puts (bs ++ cs) = puts bs ++ puts cs := by
  induction bs with
  | nil => rfl
  | cons b bs ih => rw [List.cons_append, puts, puts, ih, List.append_assoc]

/-- Settles O58: a cell in range is its ADDR's number, and out of range its refusal comes first. -/
theorem pseudoOperationsExpand : Obligations.PseudoOperationsExpand := by
  refine ⟨fun r c v bound => ⟨fun hr hc => ?_, fun h => ?_⟩, fun b => rfl, rfl, puts_append, fun b => List.append_nil _⟩
  · simp [lineWord, lineItems, scriptCell_of_lt hr hc, except_map_map]
  · simp [lineWord, lineItems, scriptCell_of_ge h, Except.map]

/-! Numbers out of range (O60) -/

/-- The bytes of `puts` are refused where one is out of range (spec 30_encoding.md R62, R66). -/
theorem scriptBytes_error {vs : List Nat} {v : Nat} (hv : v ∈ vs) (h : 0x100 ≤ v) : scriptBytes vs = .error .dataRange := by
  induction vs with
  | nil => cases hv
  | cons x xs ih =>
    rw [scriptBytes]
    by_cases hx : x < 0x100
    · have hxs : v ∈ xs := (List.mem_cons.1 hv).resolve_left (by omega)
      rw [scriptData_of_lt hx, ih hxs, both_error_right]
    · rw [scriptData_of_ge (Nat.not_lt.1 hx), both_error_left]

/-- The numbers of bytes are those bytes (spec 30_encoding.md R66). -/
theorem scriptBytes_toNat (bs : List Byte) : scriptBytes (bs.map BitVec.toNat) = .ok bs := by
  induction bs with
  | nil => rfl
  | cons b bs ih => rw [List.map_cons, scriptBytes, scriptData_toNat, ih, both_ok]

theorem readWord_toNat (a : Address) : (readWord a).toNat = a.toNat * 0x100 := by
  rw [readWord, opWord_toNat]
  simp

theorem writeWord_toNat (a : Address) (v : Byte) : (writeWord a v).toNat = 0x1000000 + a.toNat * 0x100 + v.toNat := by
  rw [writeWord, opWord_toNat]
  simp

/-- Settles O60: each line by the range check of its number. -/
theorem scriptNumbersAreNeverTruncated : Obligations.ScriptNumbersAreNeverTruncated := by
  intro a v n bound
  refine ⟨fun ha hv => ⟨⟨readWord (BitVec.ofNat 16 a), ?_⟩, ⟨writeWord (BitVec.ofNat 16 a) (BitVec.ofNat 8 v), ?_⟩,
    BitVec.ofNat 16 a, BitVec.ofNat 8 v, ?_⟩, fun ha x => ?_, fun hv => ⟨fun ha => ?_, fun r c hr hc => ?_, ?_⟩,
    fun vs hv h => ?_, fun bs => ?_⟩
  · simp [lineWord, scriptAddr_of_lt ha, readWord_toNat, Except.map, Nat.mod_eq_of_lt ha]
  · simp [lineWord, scriptAddr_of_lt ha, scriptData_of_lt hv, writeWord_toNat, Nat.mod_eq_of_lt ha, Nat.mod_eq_of_lt hv]
  · simp [lineItems, scriptAddr_of_lt ha, scriptData_of_lt hv, Except.map, putc, Nat.mod_eq_of_lt ha, Nat.mod_eq_of_lt hv]
  · simp [lineWord, lineItems, scriptAddr_of_ge ha, Except.map]
  · simp [lineWord, lineItems, scriptAddr_of_lt ha, scriptData_of_ge hv, Except.map]
  · have ha : 0x0200 + 32 * r + c < 0x10000 := by omega
    simp [lineWord, lineItems, scriptCell_of_lt hr hc, scriptAddr_of_lt ha, scriptData_of_ge hv, Except.map]
  · simp [lineItems, scriptData_of_ge hv, Except.map]
  · simp [lineItems, scriptBytes_error hv h, Except.map]
  · simp [lineItems, scriptBytes_toNat, Except.map]

end Sys2Proof.Machine
end

section
/-! PROOFS. Bus reads (spec 40_bus_read.md): what a READ drives, alone and after other operations, and the byte each target's READ
returns. -/

namespace Sys2Proof.Machine

open Sys2Proof

/-! A READ by what its address views (O11) -/

/-- A READ drives the byte its address views, and changes the ports alone (spec 40_bus_read.md R67). -/
theorem exec_read_of_view {i : Instr} {s : State} {v : Byte} (hi : i.wf = true) (ho : opcodeOf i = 0b000#3)
    (hv : peek s.block (addressOf i) = v) :
    ∃ t, exec i s = .next t ∧ t.ports.rdata = some v ∧ t = { s with ports := t.ports } :=
  ⟨_, exec_read hi ho s, congrArg some hv, rfl⟩

/-- Settles O11: a READ is `driveRdata` of the view. -/
theorem readsReturnTheViewedByte : Obligations.ReadsReturnTheViewedByte :=
  fun _ _ hi ho => exec_read_of_view hi ho rfl

/-! A READ after other operations -/

/-- A READ after operations that complete drives what its address then views. -/
theorem execAll_append_read {is : List Instr} {i : Instr} {s u : State} {v : Byte} (h : execAll is s = .next u) (hi : i.wf = true)
    (ho : opcodeOf i = 0b000#3) (hv : peek u.block (addressOf i) = v) :
    ∃ t, execAll (is ++ [i]) s = .next t ∧ t.ports.rdata = some v := by
  refine ⟨u.driveRdata v, ?_, rfl⟩
  rw [execAll_append h, execAll_cons (exec_read hi ho u), hv, execAll]

/-- A READ right after an operation drives what its address views in the block that operation leaves. -/
theorem execAll_op_read {j i : Instr} (s : State) {v : Byte} (hj : j.wf = true) (hi : i.wf = true) (ho : opcodeOf i = 0b000#3)
    (hv : peek (blockAfter j s.block) (addressOf i) = v) :
    ∃ t, execAll [j, i] s = .next t ∧ t.ports.rdata = some v := by
  obtain ⟨u, hu, hb⟩ := exec_completes hj s
  exact execAll_append_read (is := [j]) (execAll_cons hu []) hi ho (hb ▸ hv)

/-! The console's registers (O12, O13) -/

/-- Settles O12: 0x00FF views DATA, which a DRAIN leaves and a RESET puts at 0x00. -/
theorem rdCdatReturnsData : Obligations.RdCdatReturnsData := by
  have view (b : Block) : peek b (addressOf .rdCdat) = b.data := peek_consoleData resolve_conData
  refine ⟨fun d => decode_read 0x00FF#16 d, fun s => ?alone, fun s => ?afterDrain, fun s => ?afterReset⟩
  case alone => exact exec_read_of_view rfl rfl (view _)
  case afterDrain => exact execAll_op_read s rfl rfl rfl (view _)
  case afterReset => exact execAll_op_read s rfl rfl rfl (peek_launch _)

/-- Settles O13: 0x00FE views FLAG, which a write sets verbatim and a DRAIN or a RESET puts at 0x00. -/
theorem rdCrdyReturnsFlag : Obligations.RdCrdyReturnsFlag := by
  have view (b : Block) : peek b (addressOf .rdCrdy) = b.flag := peek_consoleReady resolve_conReady
  refine ⟨fun d => decode_read 0x00FE#16 d, fun s => ?alone, fun s v => ?afterWrite, fun s => ?afterDrain, fun s => ?afterReset⟩
  case alone => exact exec_read_of_view rfl rfl (view _)
  case afterWrite => exact execAll_op_read s rfl rfl rfl (view _)
  case afterDrain => exact execAll_op_read s rfl rfl rfl (view _)
  case afterReset => exact execAll_op_read s rfl rfl rfl (peek_launch _)

/-! RAM (O15) -/

/-- Settles O15: a RAM address views its cell, 0x00 in the launch block, and operations that do not write it keep the view. -/
theorem rdRamReturnsTheRamCell : Obligations.RdRamReturnsTheRamCell := by
  intro s a ha
  have hwf : (Instr.rdRam a).wf = true := decide_eq_true ha
  refine ⟨fun d => ?word, exec_read_of_view hwf rfl (peek_ram ha), fun is hk => ?unwritten⟩
  case word => rw [decode_read, (select_ram ha 0).1]
  case unwritten =>
    obtain ⟨u, hu, hlaunch⟩ := exec_completes (i := .reset) rfl s
    have hram : u.block.ram.wf = true := by rw [hlaunch]; rfl
    obtain ⟨t, ht, -, hview⟩ := execAll_keeps_view hk hram
    refine execAll_append_read ((execAll_cons hu is).trans ht) hwf rfl (hview.trans ?_)
    rw [hlaunch]
    exact peek_launch a

/-! The framebuffer (O14) -/

/-- The low pattern's address is that of the cell with index x (spec 10_state.md R21; 30_encoding.md R55). -/
theorem fbLowAddr_eq_cellAddr {x : BitVec 9} {r c : BitVec 5} (h : r.toNat * 32 + c.toNat = x.toNat) :
    fbLowAddr x = cellAddr r c := by
  apply BitVec.eq_of_toNat_eq
  rw [fbLowAddr_toNat, cellAddr_toNat]
  omega

/-- The high pattern's address is that of the cell with index 512 + x (spec 10_state.md R21; 30_encoding.md R55). -/
theorem fbHighAddr_eq_cellAddr {x : BitVec 9} {r c : BitVec 5} (h : r.toNat * 32 + c.toNat = 512 + x.toNat) :
    fbHighAddr x = cellAddr r c := by
  apply BitVec.eq_of_toNat_eq
  rw [fbHighAddr_toNat, cellAddr_toNat]
  omega

/-- A READ at a cell's address drives that cell (spec 40_bus_read.md R71). -/
theorem exec_read_cell {i : Instr} (s : State) {r c : BitVec 5} (hi : i.wf = true) (ho : opcodeOf i = 0b000#3)
    (ha : addressOf i = cellAddr r c) :
    ∃ t, exec i s = .next t ∧ t.ports.rdata = some (gridRead s.block.fb r c) ∧ t = { s with ports := t.ports } :=
  exec_read_of_view hi ho (ha ▸ peek_cellAddr s.block r c)

/-- An operation that does not write at a framebuffer address leaves its cell, whatever RAM holds. -/
theorem exec_keeps_cell {i : Instr} {s t : State} {a : Address} (h : exec i s = .next t) (ha : resolve a = .framebuffer)
    (hn : writesAt i a = none) : cellRead t.block.fb a = cellRead s.block.fb a := by
  rw [exec_block h]
  obtain hsame | ⟨x, v, rfl, hfb⟩ | ⟨x, v, rfl, hfb⟩ | rfl | rfl := blockAfter_fb i s.block
  · rw [hsame]
  · have hne : a ≠ fbLowAddr x := by simpa [writesAt] using hn
    rw [hfb, cellRead_cellWrite _ _ (resolve_fbLowAddr x) ha, if_neg hne]
  · have hne : a ≠ fbHighAddr x := by simpa [writesAt] using hn
    rw [hfb, cellRead_cellWrite _ _ (resolve_fbHighAddr x) ha, if_neg hne]
  · cases hn.symm.trans (if_pos ((resolve_framebuffer_iff a).1 ha))
  · cases hn

/-- Operations after a blank framebuffer that do not write at an address of it leave that cell at 0x00 (spec 40_bus_read.md R71). -/
theorem execAll_keeps_blank_cell {is : List Instr} {a : Address} (ha : resolve a = .framebuffer)
    (h : ∀ k ∈ is, k.wf = true ∧ writesAt k a = none) {s : State} (hs : s.block.fb = Grid.blank) :
    ∃ t, execAll is s = .next t ∧ peek t.block a = 0x00#8 := by
  obtain ⟨t, ht, hcell⟩ := execAll_keeps (P := fun t => cellRead t.block.fb a = 0x00#8)
    (fun k hk => ⟨(h k hk).1, fun _ _ he hc => (exec_keeps_cell he ha (h k hk).2).trans hc⟩) (hs ▸ cellRead_blank a)
  exact ⟨t, ht, (peek_framebuffer ha).trans hcell⟩

/-- RESET and CLEAR complete and leave the framebuffer blank (spec 43_host.md R88; 70_reset_and_hazards.md R104). -/
theorem exec_blanks {j : Instr} (hj : j = .reset ∨ j = .clear) (s : State) :
    ∃ t, exec j s = .next t ∧ t.block.fb = Grid.blank := by
  obtain rfl | rfl := hj <;> exact ⟨_, rfl, rfl⟩

/-- Settles O14: each pattern's address is its cell's, and a cell left alone since the grid was blanked is still 0x00. -/
theorem rdFbReturnsTheCell : Obligations.RdFbReturnsTheCell := by
  refine ⟨fun d x => ?words, fun s x r c h => ?low, fun s x r c h => ?high, fun s j i is hj hi hk => ?unwritten⟩
  case words =>
    exact ⟨(decode_read (fbLowAddr x) d).trans (congrArg _ (select_fbLowAddr x 0).1),
      (decode_read (fbHighAddr x) d).trans (congrArg _ (select_fbHighAddr x 0).1)⟩
  case low => exact exec_read_cell s rfl rfl (fbLowAddr_eq_cellAddr h)
  case high => exact exec_read_cell s rfl rfl (fbHighAddr_eq_cellAddr h)
  case unwritten =>
    obtain ⟨hwf, hop, ha⟩ : i.wf = true ∧ opcodeOf i = 0b000#3 ∧ resolve (addressOf i) = .framebuffer := by
      obtain ⟨x, rfl | rfl⟩ := hi
      · exact ⟨rfl, rfl, resolve_fbLowAddr x⟩
      · exact ⟨rfl, rfl, resolve_fbHighAddr x⟩
    obtain ⟨u, hu, hblank⟩ := exec_blanks hj s
    obtain ⟨t, ht, hview⟩ := execAll_keeps_blank_cell ha hk hblank
    exact execAll_append_read ((execAll_cons hu is).trans ht) hwf hop hview

/-! The Bus's own call surface (O21) -/

theorem memRead_byte (a : Address) (s : State) : memRead a 1 s = .next (s.driveRdata (peek s.block a)) := if_pos rfl

theorem memWrite_byte (a : Address) (v : Byte) (s : State) : memWrite a 1 v s = .next (s.poke a v).quiet := if_pos rfl

/-- Settles O21: the word's operation does the Bus's own access of one byte, and any other width is refused. -/
theorem busSurfaceIsTheOperations : Obligations.BusSurfaceIsTheOperations := by
  refine ⟨fun a s => ?read, fun a v s => ?write, fun a v n s hn => ?wide⟩
  case read => exact ⟨readInstr a, decode_read a _, (exec_readInstr a s).trans (memRead_byte a s).symm⟩
  case write => exact ⟨writeInstr a v, decode_write a v, (exec_writeInstr a v s).trans (memWrite_byte a v s).symm⟩
  case wide => exact ⟨if_neg hn, if_neg hn⟩

end Sys2Proof.Machine
end

section
/-! PROOFS. Bus writes (spec 41_bus_write.md): what a WRITE changes of the Bus's view, and the one element each target's WRITE sets. -/

namespace Sys2Proof.Machine

open Sys2Proof

/-! A WRITE by the view it changes (O16) -/

/-- Settles O16: a WRITE is one Bus write, which changes one byte of the view and neither `out` nor what lies outside the block. -/
theorem writesChangeOneByte : Obligations.WritesChangeOneByte := by
  intro i s hi ho hram
  obtain ⟨hframe, hout⟩ := poke_frame s (addressOf i) (dataOf i)
  exact ⟨_, exec_write hi ho s, fun a => peek_poke s (addressOf i) a (dataOf i) hram, hout, congrArg State.quiet hframe⟩

/-! The framebuffer (O19) -/

/-- A cell of the grid after a write at a cell's address (spec 10_state.md R21; 41_bus_write.md R76). -/
theorem gridRead_cellWrite_cellAddr (g : Grid) (r c r' c' : BitVec 5) (v : Byte) :
    gridRead (cellWrite g (cellAddr r c) v) r' c' = if r' = r ∧ c' = c then v else gridRead g r' c' := by
  rw [cellWrite, cellRow_cellAddr, cellCol_cellAddr, gridRead_gridWrite]
  simp only [eq_comm]

/-- A WRITE at a cell's address sets that cell alone (spec 41_bus_write.md R76). -/
theorem exec_write_cell {i : Instr} (s : State) {r c : BitVec 5} (hi : i.wf = true) (ho : opcodeOf i = 0b001#3)
    (ha : addressOf i = cellAddr r c) :
    ∃ t, exec i s = .next t
      ∧ (∀ r' c', gridRead t.block.fb r' c' = if r' = r ∧ c' = c then dataOf i else gridRead s.block.fb r' c')
      ∧ t = { s with block := { s.block with fb := t.block.fb }, ports := t.ports } := by
  have hexec := exec_write hi ho s
  rw [ha, poke_of_framebuffer (resolve_cellAddr r c)] at hexec
  exact ⟨_, hexec, fun r' c' => gridRead_cellWrite_cellAddr s.block.fb r c r' c' (dataOf i), rfl⟩

/-- Settles O19: each pattern's word is its WRITE, and each pattern's address is its cell's. -/
theorem wrFbSetsOneCell : Obligations.WrFbSetsOneCell := by
  refine ⟨fun x v => ?words, fun s x r c v h => ?low, fun s x r c v h => ?high⟩
  case words =>
    exact ⟨(decode_write (fbLowAddr x) v).trans (congrArg _ (select_fbLowAddr x v).2),
      (decode_write (fbHighAddr x) v).trans (congrArg _ (select_fbHighAddr x v).2)⟩
  case low => exact exec_write_cell s rfl rfl (fbLowAddr_eq_cellAddr h)
  case high => exact exec_write_cell s rfl rfl (fbHighAddr_eq_cellAddr h)

/-! RAM (O20) -/

/-- Settles O20: the word of a RAM address is WR.RAM, and RAM's list reads as before at every other cell. -/
theorem wrRamSetsOneCell : Obligations.WrRamSetsOneCell := by
  intro s a v ha hram
  refine ⟨?word, _, execWrRam_next ha, fun k => ?cell, rfl⟩
  case word => rw [decode_write, (select_ram ha v).2]
  case cell => exact (ramRead_ramWrite a.toNat v hram k).trans (if_congr eq_comm rfl rfl)

/-! The console's registers (O17, O18) -/

/-- Settles O17: the write leaves FLAG, so a Pending console stays Pending and the DRAIN emits the byte now in DATA. -/
theorem wrCdatSetsData : Obligations.WrCdatSetsData := by
  refine ⟨fun v => decode_write 0x00FF#16 v, fun s v => ⟨_, rfl, rfl⟩, fun s v hflag => ?pending⟩
  case pending =>
    have hwrite : exec (.wrCdat v) s = .next (s.setData v).quiet := rfl
    obtain ⟨t, ht, hout, -⟩ := exec_drain_pending (s := (s.setData v).quiet) hflag
    exact ⟨t, (execAll_cons hwrite [.drain]).trans (execAll_cons ht []), hout⟩

/-- Settles O18: the console's state is what the stored FLAG says. -/
theorem wrCrdySetsFlag : Obligations.WrCrdySetsFlag :=
  ⟨fun v => decode_write 0x00FE#16 v, fun _ v => ⟨_, rfl, rfl, consoleState_eq_pending v, consoleState_eq_idle v⟩⟩

end Sys2Proof.Machine
end

section
/-! PROOFS. The console and the consumer (spec 42_console.md): the transition table, whose turn is next, the run with no consumer, the end
of every run with one, and the delivery of `puts`. -/

namespace Sys2Proof.Machine

open Sys2Proof

/-! DRAIN and the transition table (O24, O25) -/

/-- Settles O24: DRAIN by the console's two states, and its word. -/
theorem drainEmitsThePendingByte : Obligations.DrainEmitsThePendingByte :=
  fun _ => ⟨fun hf => ⟨_, execDrain_pending hf, rfl, rfl⟩, fun hf => ⟨_, execDrain_idle hf, rfl⟩, decode_drain⟩

/-- The console's row for every operation: only DRAIN asks whether the console is Pending (spec 42_console.md R78). -/
theorem consoleAfter_eq (i : Instr) (b : Block) :
    consoleAfter i b.flag b.data b.out = ((blockAfter i b).flag, (blockAfter i b).data, (blockAfter i b).out) := by
  cases i with
  | drain =>
    by_cases hf : b.flag = 0x00#8
    · simp only [consoleAfter, blockAfter, (consoleState_eq_idle _).2 hf, if_pos hf]
    · simp only [consoleAfter, blockAfter, (consoleState_eq_pending _).2 hf, if_neg hf]
  | _ => rfl

/-- Settles O25: every operation completes and leaves `blockAfter`, whose console is the table's. -/
theorem consoleFollowsItsTable : Obligations.ConsoleFollowsItsTable := by
  intro i s hi
  obtain ⟨t, he, hb⟩ := exec_completes hi s
  exact ⟨t, he, by rw [hb, consoleAfter_eq]⟩

/-! Whose turn is next (O27) -/

/-- The turn SCHED_COOP gives: the consumer's DRAIN after a yield, where there is a consumer, and the client's otherwise (spec
42_console.md R82). -/
def coopMove (s : State) : Turn :=
  if s.yielded && s.params.consumerPresent then .port (encode .drain) else .client

theorem takeTurn_cons {s : State} {u : Turn} {us : List Turn} (ht : s.turns = u :: us) :
    takeTurn s = runTurn u { s with turns := us } := by
  simp only [takeTurn, ht]

theorem takeTurn_coop {s : State} (ht : s.turns = []) (ho : s.order = .coop) : takeTurn s = runTurn (coopMove s) s := by
  simp only [takeTurn, ht, ho, coopTurn, coopMove, apply_ite (runTurn · s)]
  rfl

theorem takeTurn_free {s : State} (ht : s.turns = []) (ho : s.order = .free) : takeTurn s = freeTurn s := by
  simp only [takeTurn, ht, ho]

theorem eq_with_no_turns {s : State} (ht : s.turns = []) : { s with turns := [] } = s := by
  rw [← ht]

/-- Settles O27: an empty schedule leaves the move to the order, and a schedule of that one move gives it too. -/
theorem cooperativeSchedule : Obligations.CooperativeSchedule := by
  intro s hh hb ht
  refine ⟨fun ho => ⟨fun hy hp => step_coop_drain hh hb ht ho hy hp, fun h => ?client⟩, fun ho => ?free⟩
  case client =>
    rw [step_coop_client hh hb ht ho h, step_client (s := { s with turns := [.client] }) hh hb rfl]
    exact congrArg clientTurn (eq_with_no_turns ht).symm
  case free =>
    rw [step_turn hh hb, takeTurn_free ht ho, step_turn (by exact hh) (by exact hb), takeTurn_cons rfl]
    exact congrArg (fun us => runTurn _ { s with turns := us, tick := s.tick + 1 }) ht

/-! The run with no consumer (O28) -/

/-- A word carries out a DRAIN only where there is a consumer (spec 42_console.md R81). -/
theorem consumer_of_wordOp_drain {w : OpWord} {s : State} (h : wordOp w s = some .drain) : s.params.consumerPresent = true := by
  unfold wordOp at h
  split at h
  · cases h
  · split at h <;> cases h
    rename_i hc
    simpa [issuerOf] using hc

/-- The client's operation is a word's too, and a DRAIN only where there is a consumer (spec 42_console.md R81). -/
theorem consumer_of_clientOp_drain {s : State} (h : clientOp s = some .drain) : s.params.consumerPresent = true := by
  unfold clientOp at h
  split at h
  · cases h
  · obtain ⟨a, -, h⟩ := Option.bind_eq_some_iff.1 h
    exact consumer_of_wordOp_drain h
  · obtain ⟨a, -, h⟩ := Option.bind_eq_some_iff.1 h
    obtain ⟨v, -, h⟩ := Option.bind_eq_some_iff.1 h
    exact consumer_of_wordOp_drain h
  · exact consumer_of_wordOp_drain h

theorem consumer_of_turnOp_drain {u : Turn} {s : State} (h : turnOp u s = some .drain) : s.params.consumerPresent = true := by
  cases u with
  | client => exact consumer_of_clientOp_drain h
  | port w => exact consumer_of_wordOp_drain h

/-- No step is a DRAIN where there is no consumer (spec 42_console.md R81). -/
theorem consumer_of_nextOp_drain {s : State} (h : nextOp s = some .drain) : s.params.consumerPresent = true := by
  unfold nextOp at h
  split at h
  · cases h
  · split at h
    · exact consumer_of_turnOp_drain h
    · split at h
      · rename_i hc
        exact (Bool.and_eq_true_iff.1 hc).2
      · exact consumer_of_clientOp_drain h
    · exact consumer_of_turnOp_drain h

/-- Settles O28: FLAG's writers are WR.CRDY, DRAIN and RESET, and there is no DRAIN. -/
theorem absentConsumerNeverDrains : Obligations.AbsentConsumerNeverDrains := by
  intro s t hp h
  have hno : nextOp s ≠ some .drain := fun hd => by simp [consumer_of_nextOp_drain hd] at hp
  refine ⟨hno, fun hf hf' => ?_⟩
  obtain ⟨-, ⟨-, -, rfl⟩ | ⟨-, i, s', hi, he, hc, -⟩⟩ := step_cases h
  · exact absurd hf' hf
  · rw [exec_block he, hc.block] at hf'
    rw [hi] at hno ⊢
    obtain hsame | ⟨v, rfl⟩ | ⟨rfl, -⟩ | rfl := blockAfter_flag i s.block
    · exact absurd (hsame.symm.trans hf') hf
    · exact .inl (congrArg (fun v => some (Instr.wrCrdy v)) hf')
    · exact absurd rfl hno
    · exact .inr rfl

/-! Steps one after another -/

theorem runSteps_one (s : State) : runSteps 1 s = step s := by
  rw [runSteps]
  cases step s <;> rfl

/-- A run goes on from where it has come to. -/
theorem runSteps_add {k : Nat} {s t : State} (h : runSteps k s = .next t) (j : Nat) : runSteps (k + j) s = runSteps j t := by
  induction k generalizing s with
  | zero =>
    cases h
    rw [Nat.zero_add]
  | succ k ih =>
    rw [Nat.succ_add, runSteps]
    rw [runSteps] at h
    cases hs : step s with
    | next u =>
      rw [hs] at h
      exact ih h
    | fault f => rw [hs] at h; cases h
    | refused r => rw [hs] at h; cases h

theorem runSteps_succ {s t : State} (h : step s = .next t) (k : Nat) : runSteps (k + 1) s = runSteps k t := by
  rw [runSteps, h]

/-- A run whose every step lowers a bound comes to a state from which there is no next one; what the steps keep holds there. -/
theorem runSteps_stops {P : State → Prop} (bound : State → Nat)
    (hstep : ∀ s t, P s → step s = .next t → P t ∧ bound t < bound s) (s : State) (hs : P s) :
    ∃ k t, runSteps k s = .next t ∧ P t ∧ ∀ u, step t ≠ .next u := by
  induction hn : bound s using Nat.strong_induction_on generalizing s with
  | _ n ih =>
    subst hn
    by_cases hstop : ∃ u, step s = .next u
    · obtain ⟨u, hu⟩ := hstop
      obtain ⟨hPu, hlt⟩ := hstep s u hs hu
      obtain ⟨k, t, hk, ht⟩ := ih _ hlt u hPu rfl
      exact ⟨k + 1, t, (runSteps_succ hu k).trans hk, ht⟩
    · exact ⟨0, s, rfl, hs, fun u hu => hstop ⟨u, hu⟩⟩

/-! The end of every run with a consumer (O30) -/

/-- A client that terminates has its script to come, and no more (spec 43_host.md R90). -/
theorem upcoming_of_no_loop {s : State} (hl : s.loop = []) : s.upcoming = s.script := by
  unfold State.upcoming
  split
  · rename_i hs
    rw [hl, hs]
  · rename_i hs
    exact hs.symm

/-- On an Idle console no busy-wait goes on, under either polarity (spec 42_console.md R85). -/
@[simp] theorem pollContinues_zero (p : PollPolarity) : pollContinues p 0x00#8 = false := by
  cases p <;> rfl

/-- The client's turn takes an item off its program, or stays at a busy-wait that has found the console Pending (spec 42_console.md
R83). -/
theorem clientTurn_goes_on {s t : State} (hl : s.loop = []) (h : clientTurn s = .next t) :
    t.script.length < s.script.length ∨ (t.script = s.script ∧ t.yielded = true ∧ s.block.flag ≠ 0x00#8) := by
  cases hs : s.script with
  | nil =>
    rw [clientTurn_done hs hl] at h
    cases h
  | cons x rest =>
    have hu : s.upcoming = x :: rest := (upcoming_of_no_loop hl).trans hs
    cases x with
    | read a name =>
      cases ha : a.value s.names with
      | none =>
        rw [clientTurn_read_unbound hu ha] at h
        cases h
      | some a' =>
        rw [clientTurn_read_next hu ha] at h
        cases h
        exact .inl (Nat.lt_succ_self _)
    | write a v =>
      cases ha : a.value s.names with
      | none =>
        rw [clientTurn_write_unbound hu (.inl ha)] at h
        cases h
      | some a' =>
        cases hv : v.value s.names with
        | none =>
          rw [clientTurn_write_unbound hu (.inr hv)] at h
          cases h
        | some v' =>
          rw [clientTurn_write_next hu ha hv] at h
          cases h
          simp
    | poll =>
      rw [clientTurn_poll hu] at h
      cases h
      cases hc : pollContinues s.params.polarity s.block.flag with
      | true => exact .inr ⟨if_pos hc, rfl, fun hf => by simp [hf] at hc⟩
      | false => simp [hc]

/-- A run with a consumer, a client that terminates, and SCHED_COOP after the scheduled turns. -/
structure Terminating (s : State) : Prop where
  consumer : s.params.consumerPresent = true
  loop : s.loop = []
  order : s.order = .coop

/-- No step changes the parameters, the client's loop or the order (spec 00_scope.md R7). -/
theorem Terminating.step {s t : State} (hs : Terminating s) (h : step s = .next t) : Terminating t := by
  obtain ⟨hp, ho, hl, -⟩ := stepConsumesInOrder s t h
  exact ⟨hp ▸ hs.consumer, hl ▸ hs.loop, ho ▸ hs.order⟩

/-- How far a run under SCHED_COOP is from taking the next item off the client's program: from a yield the DRAIN comes first, and on a
Pending console a yield and that DRAIN (spec 42_console.md R82). -/
def coopRank (s : State) : Nat :=
  if s.yielded then 2 else if s.block.flag = 0x00#8 then 1 else 3

theorem coopRank_bounds (s : State) : 1 ≤ coopRank s ∧ coopRank s ≤ 3 := by
  unfold coopRank
  split_ifs <;> decide

/-- A bound on the next states to come of a run under SCHED_COOP with a consumer: three for each scheduled turn and each item of the
client's program; a run the host has ended has none. -/
def stepsLeft (s : State) : Nat :=
  if s.hung then 0 else 3 * (s.turns.length + s.script.length) + coopRank s

/-- A step of SCHED_COOP with nothing scheduled takes an item off the client's program, or brings the next one nearer: after a yield it is
the DRAIN, which leaves the console Idle, and a busy-wait that goes on yields (spec 42_console.md R82). -/
theorem coop_step_goes_on {s t : State} (hs : Terminating s) (ht : s.turns = []) (hh : s.hung = false)
    (hb : s.overBudget = false) (h : step s = .next t) :
    t.script.length < s.script.length ∨ (t.script = s.script ∧ coopRank t < coopRank s) := by
  cases hy : s.yielded with
  | true =>
    rw [step_coop_drain hh hb ht hs.order hy hs.consumer] at h
    right
    rw [exec_agents h]
    simp [coopRank, hy, exec_block h, blockAfter]
  | false =>
    rw [step_coop_client hh hb ht hs.order (.inl hy)] at h
    obtain hlt | ⟨hsame, hyt, hf⟩ := clientTurn_goes_on hs.loop h
    · exact .inl hlt
    · exact .inr ⟨hsame, by simp [coopRank, hyt, hy, hf]⟩

theorem stepsLeft_of_hung {s : State} (hh : s.hung = true) : stepsLeft s = 0 := if_pos hh

theorem stepsLeft_of_running {s : State} (hh : s.hung = false) :
    stepsLeft s = 3 * (s.turns.length + s.script.length) + coopRank s := if_neg (by simp [hh])

theorem stepsLeft_le (s : State) : stepsLeft s ≤ 3 * (s.turns.length + s.script.length) + coopRank s := by
  unfold stepsLeft
  split
  · exact Nat.zero_le _
  · exact le_rfl

/-- Every step lowers the bound: the abort ends the run, a scheduled turn is consumed, and SCHED_COOP goes on. -/
theorem step_lowers_stepsLeft {s t : State} (hs : Terminating s) (h : step s = .next t) : stepsLeft t < stepsLeft s := by
  have hbs := coopRank_bounds s
  obtain ⟨hh, ⟨-, -, rfl⟩ | ⟨hb, -⟩⟩ := step_cases h
  · rw [stepsLeft_of_hung s.abort_hung, stepsLeft_of_running hh]
    omega
  · obtain ⟨-, -, -, hscript, hturns, -⟩ := stepConsumesInOrder s t h
    have hlen : t.script.length ≤ s.script.length := by
      rw [upcoming_of_no_loop hs.loop] at hscript
      obtain e | e | ⟨x, e⟩ := hscript <;> simp [e]
    have hbt := coopRank_bounds t
    refine (stepsLeft_le t).trans_lt ?_
    rw [stepsLeft_of_running hh, hturns hb]
    cases ht : s.turns with
    | cons u us =>
      rw [List.tail_cons, List.length_cons]
      omega
    | nil =>
      rw [List.tail_nil]
      obtain hlt | ⟨hsame, hlt⟩ := coop_step_goes_on hs ht hh hb h
      · omega
      · rw [hsame]
        omega

/-- Settles O30: every step lowers `stepsLeft`, so some step is no next state. -/
theorem runsWithAConsumerEnd : Obligations.RunsWithAConsumerEnd := by
  intro s hp hl ho
  obtain ⟨k, t, hk, -, hstop⟩ := runSteps_stops stepsLeft
    (fun u v (hu : Terminating u) h => ⟨hu.step h, step_lowers_stepsLeft hu h⟩) s ⟨hp, hl, ho⟩
  refine ⟨k + 1, ?_⟩
  rw [runSteps_add hk, runSteps_one]
  cases ht : step t with
  | next u => exact absurd ht (hstop u)
  | fault f => exact .inl ⟨f, rfl⟩
  | refused r => exact .inr ⟨r, rfl⟩

/-! `puts` under SCHED_COOP (O31) -/

/-- A run with no budget is not over it (spec 43_host.md R90). -/
theorem overBudget_of_no_budget {s : State} (h : s.params.stepBudget = none) : s.overBudget = false :=
  (overBudget_eq_false_iff s).2 fun n hn => by simp [h] at hn

/-- A terminating run that has no budget, and so is not ended by the host. -/
structure Unhindered (s : State) : Prop extends Terminating s where
  running : s.hung = false
  budget : s.params.stepBudget = none

theorem Unhindered.overBudget {s : State} (hs : Unhindered s) : s.overBudget = false := overBudget_of_no_budget hs.budget

theorem Unhindered.step {s t : State} (hs : Unhindered s) (h : step s = .next t) : Unhindered t := by
  refine ⟨hs.toTerminating.step h, ?_, (stepConsumesInOrder s t h).1 ▸ hs.budget⟩
  obtain ⟨-, ⟨hb, -⟩ | ⟨-, i, s', -, he, hc, -⟩⟩ := step_cases h
  · cases hb.symm.trans hs.overBudget
  · rw [exec_agents he]
    exact hc.hung.trans hs.running

/-- An unhindered run with no turn left is the client's and the consumer's by SCHED_COOP. -/
structure CoopRun (s : State) : Prop extends Unhindered s where
  turns : s.turns = []

theorem CoopRun.step {s t : State} (hs : CoopRun s) (h : step s = .next t) : CoopRun t := by
  refine ⟨hs.toUnhindered.step h, ?_⟩
  obtain ⟨-, -, -, -, hturns, -⟩ := stepConsumesInOrder s t h
  rw [hturns hs.overBudget, hs.turns, List.tail_nil]

/-- The Bus's write, as the block's row for the WRITE its address selects (spec 41_bus_write.md R72). -/
theorem poke_block (s : State) (a : Address) (v : Byte) : (s.poke a v).block = blockAfter (writeInstr a v) s.block :=
  (exec_block (exec_writeInstr a v s) :)

/-- The client's turn at a write of a byte to an address writes that byte there (spec 30_encoding.md R62; 42_console.md R83). -/
theorem clientTurn_write_lit {s : State} {a : Address} {v : Byte} {rest : List ScriptItem}
    (hu : s.upcoming = .write (.lit a) (.lit v) :: rest) :
    ∃ t, clientTurn s = .next t ∧ t.script = rest ∧ t.yielded = false ∧ t.block = blockAfter (writeInstr a v) s.block := by
  refine ⟨_, clientTurn_write_next hu rfl rfl, State.poke_script .., ?_, poke_block _ a v⟩
  rw [State.quiet_yielded, (poke_frame _ a v).1]
  rfl

/-- The client's turn at a busy-wait reads FLAG, yields, and stays or leaves (spec 42_console.md R83). -/
theorem clientTurn_poll_next {s : State} {rest : List ScriptItem} (hu : s.upcoming = .poll :: rest) :
    ∃ t, clientTurn s = .next t ∧ t.yielded = true ∧ t.block = s.block
      ∧ t.script = if pollContinues s.params.polarity s.block.flag then .poll :: rest else rest :=
  ⟨_, clientTurn_poll hu, rfl, rfl, rfl⟩

/-- With no yield SCHED_COOP gives the client's turn (spec 42_console.md R82). -/
theorem CoopRun.client {s t : State} (hs : CoopRun s) (hy : s.yielded = false) (ht : clientTurn s = .next t) :
    Machine.step s = .next t ∧ CoopRun t := by
  have h := (step_coop_client hs.running hs.overBudget hs.turns hs.order (.inl hy)).trans ht
  exact ⟨h, hs.step h⟩

/-- SCHED_COOP at the client's write. -/
theorem CoopRun.write {s : State} {a : Address} {v : Byte} {rest : List ScriptItem} (hs : CoopRun s) (hy : s.yielded = false)
    (hscript : s.script = .write (.lit a) (.lit v) :: rest) :
    ∃ t, Machine.step s = .next t ∧ CoopRun t ∧ t.yielded = false ∧ t.script = rest
      ∧ t.block = blockAfter (writeInstr a v) s.block := by
  obtain ⟨t, ht, hst, hyt, hbt⟩ := clientTurn_write_lit ((upcoming_of_no_loop hs.loop).trans hscript)
  obtain ⟨h, hct⟩ := hs.client hy ht
  exact ⟨t, h, hct, hyt, hst, hbt⟩

/-- SCHED_COOP at the client's busy-wait (spec 42_console.md R83). -/
theorem CoopRun.poll {s : State} {rest : List ScriptItem} (hs : CoopRun s) (hy : s.yielded = false)
    (hscript : s.script = .poll :: rest) :
    ∃ t, Machine.step s = .next t ∧ CoopRun t ∧ t.yielded = true ∧ t.block = s.block
      ∧ t.script = if pollContinues s.params.polarity s.block.flag then .poll :: rest else rest := by
  obtain ⟨t, ht, hyt, hbt, hst⟩ := clientTurn_poll_next ((upcoming_of_no_loop hs.loop).trans hscript)
  obtain ⟨h, hct⟩ := hs.client hy ht
  exact ⟨t, h, hct, hyt, hbt, hst⟩

/-- SCHED_COOP after a yield: the consumer's DRAIN (spec 42_console.md R82). -/
theorem CoopRun.drain {s : State} (hs : CoopRun s) (hy : s.yielded = true) :
    ∃ t, Machine.step s = .next t ∧ CoopRun t ∧ t.yielded = false ∧ t.script = s.script ∧ t.block = blockAfter .drain s.block := by
  obtain ⟨t, he, hb⟩ := exec_completes (i := .drain) rfl { s with yielded := false }
  have h := (step_coop_drain hs.running hs.overBudget hs.turns hs.order hy hs.consumer).trans he
  refine ⟨t, h, hs.step h, ?_, ?_, hb⟩ <;> rw [exec_agents he]

/-- The data port's write and the ready port's (spec 41_bus_write.md R74, R75). -/
theorem blockAfter_writeData (v : Byte) (b : Block) : blockAfter (writeInstr 0x00FF#16 v) b = { b with data := v } := rfl

theorem blockAfter_writeFlag (v : Byte) (b : Block) : blockAfter (writeInstr 0x00FE#16 v) b = { b with flag := v } := rfl

/-- On the flag value 0x01 every busy-wait goes on, under either polarity (spec 42_console.md R85). -/
@[simp] theorem pollContinues_one (p : PollPolarity) : pollContinues p 0x01#8 = true := by
  cases p <;> rfl

/-- `putc b` in six steps of SCHED_COOP: its data and flag, a poll that goes on, the DRAIN that emits the byte, a poll that does not, and
the DRAIN its yield is owed (spec 95_test_vectors.md P1). -/
theorem CoopRun.putc {s : State} {b : Byte} {rest : List ScriptItem} (hs : CoopRun s) (hy : s.yielded = false)
    (hscript : s.script = Machine.putc b ++ rest) :
    ∃ t, runSteps 6 s = .next t ∧ CoopRun t ∧ t.yielded = false ∧ t.script = rest
      ∧ t.block = { s.block with data := b, flag := 0x00#8, out := s.block.out ++ [b] } := by
  obtain ⟨s₁, h₁, c₁, y₁, p₁, b₁⟩ := hs.write hy hscript
  obtain ⟨s₂, h₂, c₂, y₂, p₂, b₂⟩ := c₁.write y₁ p₁
  obtain ⟨s₃, h₃, c₃, y₃, b₃, p₃⟩ := c₂.poll y₂ p₂
  rw [b₂, blockAfter_writeFlag, pollContinues_one, if_pos rfl] at p₃
  obtain ⟨s₄, h₄, c₄, y₄, p₄, b₄⟩ := c₃.drain y₃
  obtain ⟨s₅, h₅, c₅, y₅, b₅, p₅⟩ := c₄.poll y₄ (p₄.trans p₃)
  rw [b₄, blockAfter, pollContinues_zero, if_neg Bool.false_ne_true] at p₅
  obtain ⟨s₆, h₆, c₆, y₆, p₆, b₆⟩ := c₅.drain y₅
  refine ⟨s₆, ?_, c₆, y₆, p₆.trans p₅, ?_⟩
  · rw [runSteps_succ h₁, runSteps_succ h₂, runSteps_succ h₃, runSteps_succ h₄, runSteps_succ h₅, runSteps_one, h₆]
  · rw [b₆, b₅, b₄, b₃, b₂, b₁]
    rfl

/-- `puts bs` is `putc` of each byte, six steps each. -/
theorem CoopRun.puts {bs : List Byte} {s : State} (hs : CoopRun s) (hy : s.yielded = false) (hf : s.block.flag = 0x00#8)
    (hscript : s.script = Machine.puts bs) :
    ∃ t, runSteps (6 * bs.length) s = .next t ∧ CoopRun t ∧ t.yielded = false ∧ t.script = []
      ∧ t.block = { s.block with data := t.block.data, out := s.block.out ++ bs } := by
  induction bs generalizing s with
  | nil => exact ⟨s, rfl, hs, hy, hscript, by rw [List.append_nil]⟩
  | cons b bs ih =>
    obtain ⟨u, hu, hcu, hyu, hsu, hbu⟩ := hs.putc hy hscript
    obtain ⟨t, ht, hct, hyt, hst, hbt⟩ := ih hcu hyu (by rw [hbu]) hsu
    refine ⟨t, ?_, hct, hyt, hst, ?_⟩
    · rw [List.length_cons, Nat.mul_succ, Nat.add_comm, runSteps_add hu, ht]
    · rw [hbt, hbu, List.append_assoc, ← hf]
      rfl

/-- Settles O31: `CoopRun.puts`, and the client's next turn finds nothing left. -/
theorem putsDeliversUnderCooperation : Obligations.PutsDeliversUnderCooperation := by
  intro bs s hp hbudget hh hy ht ho hscript hl hf
  obtain ⟨t, hrun, hct, hyt, hst, hbt⟩ := CoopRun.puts (s := s) ⟨⟨⟨hp, hl, ho⟩, hh, hbudget⟩, ht⟩ hy hf hscript
  have hdone := step_coop_client hct.running hct.overBudget hct.turns hct.order (.inl hyt)
  rw [clientTurn_done hst hct.loop] at hdone
  refine ⟨t, hrun, ?_, hst, ?_, ?_, ?_, hdone⟩ <;> rw [hbt]
  exact hf

/-! `puts` in any order of client turns, DRAINs, FRAMEs and CLEARs (O32, O33) -/

theorem puts_cons (v : Byte) (rest : List Byte) : puts (v :: rest) =
    .write (.lit 0x00FF#16) (.lit v) :: .write (.lit 0x00FE#16) (.lit 0x01#8) :: .poll :: puts rest := rfl

/-- How far `puts` has come, by the client's program `p` and the block: each byte is written to DATA, requested at FLAG, and drained, before
the client leaves its busy-wait (spec 42_console.md R86). `target` is what `out` is to be at the end. -/
inductive PutsPhase (target : List Byte) (p : List ScriptItem) (b : Block) : Prop
  | between (rest : List Byte) (hp : p = puts rest) (hf : b.flag = 0x00#8) (ho : b.out ++ rest = target)
  | loaded (rest : List Byte) (hp : p = .write (.lit 0x00FE#16) (.lit 0x01#8) :: .poll :: puts rest) (hf : b.flag = 0x00#8)
      (ho : b.out ++ b.data :: rest = target)
  | sent (rest : List Byte) (hp : p = .poll :: puts rest) (hf : b.flag = 0x01#8) (ho : b.out ++ b.data :: rest = target)
  | taken (rest : List Byte) (hp : p = .poll :: puts rest) (hf : b.flag = 0x00#8) (ho : b.out ++ rest = target)

/-- At the end of the program everything has been delivered. -/
theorem PutsPhase.delivered {target : List Byte} {p : List ScriptItem} {b : Block} (h : PutsPhase target p b) (hp : p = []) :
    b.out = target ∧ b.flag = 0x00#8 := by
  subst hp
  cases h with
  | between rest hp hf ho =>
    cases rest with
    | nil => exact ⟨by rwa [List.append_nil] at ho, hf⟩
    | cons v rest => cases hp
  | loaded rest hp => cases hp
  | sent rest hp => cases hp
  | taken rest hp => cases hp

/-- The steps of the protocol still to make: two for each item of the client's program, one for a byte the consumer is to take. -/
def workLeft (s : State) : Nat :=
  2 * s.script.length + if s.block.flag = 0x00#8 then 0 else 1

/-- An item of the program done is work done, whatever the console's state. -/
theorem workLeft_lt_of_script {s t : State} (h : t.script.length < s.script.length) : workLeft t < workLeft s := by
  unfold workLeft
  split_ifs <;> omega

/-- A byte taken from a Pending console is work done. -/
theorem workLeft_lt_of_flag {s t : State} (hp : t.script = s.script) (ht : t.block.flag = 0x00#8) (hs : s.block.flag ≠ 0x00#8) :
    workLeft t < workLeft s := by
  rw [workLeft, workLeft, if_pos ht, if_neg hs, hp]
  exact Nat.lt_succ_self _

theorem workLeft_congr {s t : State} (hp : t.script = s.script) (hf : t.block.flag = s.block.flag) : workLeft t = workLeft s := by
  rw [workLeft, workLeft, hp, hf]

/-- The console's state is the parity of the work left. -/
theorem idle_iff_of_workLeft_eq {s t : State} (h : workLeft s = workLeft t) :
    s.block.flag = 0x00#8 ↔ t.block.flag = 0x00#8 := by
  unfold workLeft at h
  split_ifs at h with hs ht ht
  · exact iff_of_true hs ht
  · omega
  · omega
  · exact iff_of_false hs ht

/-- The turns that take `puts` further: the client's on an Idle console, the consumer's on a Pending one (spec 42_console.md R77). -/
def Turn.advances (u : Turn) (s : State) : Prop :=
  (u = .client ∧ s.block.flag = 0x00#8) ∨ (u = .port (encode .drain) ∧ s.block.flag ≠ 0x00#8)

/-- What a turn of the protocol keeps of `puts` and of the work left. -/
structure PutsTurn (target : List Byte) (u : Turn) (s t : State) : Prop where
  phase : PutsPhase target t.script t.block
  work : workLeft t ≤ workLeft s
  advance : u.advances s → workLeft t < workLeft s

/-- A turn that does some of the work. -/
theorem PutsTurn.of_lt {target : List Byte} {u : Turn} {s t : State} (hp : PutsPhase target t.script t.block)
    (h : workLeft t < workLeft s) : PutsTurn target u s t :=
  ⟨hp, h.le, fun _ => h⟩

/-- A turn that leaves the program and FLAG alone, where it could not advance. -/
theorem PutsTurn.of_same {target : List Byte} {u : Turn} {s t : State} (hp : PutsPhase target t.script t.block)
    (hs : t.script = s.script) (hf : t.block.flag = s.block.flag) (hu : ¬u.advances s) : PutsTurn target u s t :=
  ⟨hp, (workLeft_congr hs hf).le, fun h => absurd h hu⟩

/-- The client's turn in `puts`: on an Idle console its next item, and on a Pending one another iteration of its busy-wait. -/
theorem PutsPhase.client {target : List Byte} {s : State} (h : PutsPhase target s.script s.block) (hl : s.loop = [])
    (hne : s.script ≠ []) : ∃ t, clientTurn s = .next t ∧ PutsTurn target .client s t := by
  have hu := upcoming_of_no_loop hl
  cases h with
  | between rest hp hf ho =>
    cases rest with
    | nil => exact absurd hp hne
    | cons v rest =>
      obtain ⟨t, ht, hst, -, hbt⟩ := clientTurn_write_lit (hu.trans hp)
      rw [blockAfter_writeData] at hbt
      exact ⟨t, ht, .of_lt (.loaded rest hst (by rw [hbt, hf]) (by rw [hbt, ho]))
        (workLeft_lt_of_script (by rw [hst, hp, puts_cons]; exact Nat.lt_succ_self _))⟩
  | loaded rest hp hf ho =>
    obtain ⟨t, ht, hst, -, hbt⟩ := clientTurn_write_lit (hu.trans hp)
    rw [blockAfter_writeFlag] at hbt
    exact ⟨t, ht, .of_lt (.sent rest hst (by rw [hbt]) (by rw [hbt, ho]))
      (workLeft_lt_of_script (by rw [hst, hp]; exact Nat.lt_succ_self _))⟩
  | sent rest hp hf ho =>
    obtain ⟨t, ht, -, hbt, hst⟩ := clientTurn_poll_next (hu.trans hp)
    rw [hf, pollContinues_one, if_pos rfl] at hst
    exact ⟨t, ht, .of_same (.sent rest hst (by rw [hbt, hf]) (by rw [hbt, ho])) (hst.trans hp.symm) (by rw [hbt])
      (by simp [Turn.advances, hf])⟩
  | taken rest hp hf ho =>
    obtain ⟨t, ht, -, hbt, hst⟩ := clientTurn_poll_next (hu.trans hp)
    rw [hf, pollContinues_zero, if_neg Bool.false_ne_true] at hst
    exact ⟨t, ht, .of_lt (.between rest hst (by rw [hbt, hf]) (by rw [hbt, ho]))
      (workLeft_lt_of_script (by rw [hst, hp]; exact Nat.lt_succ_self _))⟩

/-- A presented word that answers a next state is its operation on the block, and leaves the client's program. -/
theorem present_of_decode_next {w : OpWord} {i : Instr} {s t : State} (hd : decode w = .ok i) (h : present w s = .next t) :
    t.script = s.script ∧ t.block = blockAfter i s.block := by
  unfold present at h
  rw [hd] at h
  simp only at h
  split at h
  · cases h
  · obtain ⟨-, -, -, hs, -⟩ := exec_keeps_schedule h
    exact ⟨hs.trans (noteIssued_script ..), (exec_block h).trans (congrArg _ (noteIssued_block ..))⟩

/-- The words of the protocol's turns. -/
theorem decode_of_keepsProtocol {w : OpWord} (h : (Turn.port w).keepsProtocol = true) :
    (w = encode .drain ∧ decode w = .ok .drain) ∨ (w ≠ encode .drain ∧ (decode w = .ok .frame ∨ decode w = .ok .clear)) := by
  simp only [Turn.keepsProtocol, Bool.or_eq_true, decide_eq_true_eq] at h
  obtain (rfl | rfl) | rfl := h <;> decide

theorem blockAfter_drain_idle {b : Block} (hf : b.flag = 0x00#8) : blockAfter .drain b = b := by
  simp [blockAfter, ← hf]

theorem blockAfter_drain_pending {b : Block} (hf : b.flag ≠ 0x00#8) :
    blockAfter .drain b = { b with flag := 0x00#8, out := b.out ++ [b.data] } := by
  rw [blockAfter, if_neg hf]

/-- The phase speaks of the console alone. -/
theorem PutsPhase.congr {target : List Byte} {p : List ScriptItem} {b c : Block} (h : PutsPhase target p b)
    (hf : c.flag = b.flag) (hd : c.data = b.data) (ho : c.out = b.out) : PutsPhase target p c := by
  cases h with
  | between rest hp hf' ho' => exact .between rest hp (hf.trans hf') (ho ▸ ho')
  | loaded rest hp hf' ho' => exact .loaded rest hp (hf.trans hf') (ho ▸ hd ▸ ho')
  | sent rest hp hf' ho' => exact .sent rest hp (hf.trans hf') (ho ▸ hd ▸ ho')
  | taken rest hp hf' ho' => exact .taken rest hp (hf.trans hf') (ho ▸ ho')

/-- A byte is Pending only after its request: the DRAIN of a Pending console takes it. -/
theorem PutsPhase.drain_pending {target : List Byte} {p : List ScriptItem} {b : Block} (h : PutsPhase target p b)
    (hf : b.flag ≠ 0x00#8) : PutsPhase target p { b with flag := 0x00#8, out := b.out ++ [b.data] } := by
  cases h with
  | sent rest hp _ ho => exact .taken rest hp rfl (by rw [← ho, List.append_assoc]; rfl)
  | between rest _ hf' => exact absurd hf' hf
  | loaded rest _ hf' => exact absurd hf' hf
  | taken rest _ hf' => exact absurd hf' hf

/-- A turn of the protocol that answers a next state takes `puts` further, or leaves it where it stands. -/
theorem PutsPhase.turn {target : List Byte} {u : Turn} {s t : State} (h : PutsPhase target s.script s.block) (hl : s.loop = [])
    (hu : u.keepsProtocol = true) (ht : runTurn u s = .next t) : PutsTurn target u s t := by
  cases u with
  | client =>
    have hne : s.script ≠ [] := fun hs => by
      rw [runTurn, clientTurn_done hs hl] at ht
      cases ht
    obtain ⟨t', ht', hturn⟩ := h.client hl hne
    cases ht.symm.trans ht'
    exact hturn
  | port w =>
    obtain ⟨rfl, hd⟩ | ⟨hw, hd | hd⟩ := decode_of_keepsProtocol hu <;> obtain ⟨hst, hbt⟩ := present_of_decode_next hd ht
    · by_cases hf : s.block.flag = 0x00#8
      · rw [blockAfter_drain_idle hf] at hbt
        exact .of_same (by rwa [hst, hbt]) hst (by rw [hbt]) (by simp [Turn.advances, hf])
      · rw [blockAfter_drain_pending hf] at hbt
        exact .of_lt (by rw [hst, hbt]; exact h.drain_pending hf) (workLeft_lt_of_flag hst (by rw [hbt]) hf)
    · exact .of_same (by rw [hst, hbt]; exact h) hst (by rw [hbt]; rfl) (by simp [Turn.advances, hw])
    · exact .of_same (by rw [hst, hbt]; exact h.congr rfl rfl rfl) hst (by rw [hbt]; rfl) (by simp [Turn.advances, hw])

/-- With a consumer every turn of the protocol has a next state, until the program has come to its end. -/
theorem PutsPhase.turn_completes {target : List Byte} {u : Turn} {s : State} (h : PutsPhase target s.script s.block)
    (hl : s.loop = []) (hc : s.params.consumerPresent = true) (hu : u.keepsProtocol = true) (hne : s.script ≠ []) :
    ∃ t, runTurn u s = .next t := by
  cases u with
  | client =>
    obtain ⟨t, ht, -⟩ := h.client hl hne
    exact ⟨t, ht⟩
  | port w =>
    obtain ⟨i, hd, hi⟩ : ∃ i, decode w = .ok i ∧ i.wf = true := by
      obtain ⟨-, hd⟩ | ⟨-, hd | hd⟩ := decode_of_keepsProtocol hu <;> exact ⟨_, hd, rfl⟩
    obtain ⟨t, ht, -⟩ := exec_completes hi (noteIssued (issuerOf i) s)
    exact ⟨t, (present_of_decode hd fun _ => hc).trans ht⟩

/-! Runs of such turns, finite (O32) -/

/-- A step given to a turn is the host's abort, or that turn. -/
theorem stepBy_cases {u : Turn} {s t : State} (h : stepBy u s = .next t) :
    s.hung = false ∧ (t = State.abort { s with turns := [u] } ∨ runTurn u { s with turns := [] } = .next t) := by
  obtain ⟨hh, ⟨-, -, ht⟩ | ⟨hb, -⟩⟩ := step_cases h
  · exact ⟨hh, .inl ht⟩
  · rw [stepBy, step_turn hh hb, takeTurn_cons rfl] at h
    exact ⟨hh, .inr h⟩

/-- A finite run of the protocol's turns keeps the phase: the abort leaves the program and the block as they are. -/
theorem PutsPhase.runBy {target : List Byte} {us : List Turn} {s t : State} (h : PutsPhase target s.script s.block)
    (hl : s.loop = []) (hus : ∀ u ∈ us, u.keepsProtocol = true) (ht : runBy us s = .next t) :
    PutsPhase target t.script t.block := by
  induction us generalizing s with
  | nil =>
    cases ht
    exact h
  | cons u us ih =>
    obtain ⟨hu, hus⟩ := List.forall_mem_cons.1 hus
    rw [Machine.runBy] at ht
    cases hv : stepBy u s with
    | next v =>
      rw [hv] at ht
      obtain ⟨-, -, hlv, -⟩ := stepConsumesInOrder _ v hv
      refine ih ?_ (hlv.trans hl) hus ht
      obtain ⟨-, rfl | hrun⟩ := stepBy_cases hv
      · exact h
      · exact (PutsPhase.turn (s := { s with turns := [] }) h hl hu hrun).phase
    | fault f => rw [hv] at ht; cases ht
    | refused r => rw [hv] at ht; cases ht

/-- An unhindered run in the middle of `puts` whose scheduled turns are the protocol's. -/
structure PutsRun (target : List Byte) (s : State) : Prop extends Unhindered s where
  scheduled : ∀ u ∈ s.turns, u.keepsProtocol = true
  phase : PutsPhase target s.script s.block

theorem coopMove_keepsProtocol (s : State) : (coopMove s).keepsProtocol = true := by
  unfold coopMove
  split <;> decide

/-- A step of such a run is a turn of the protocol, scheduled or SCHED_COOP's. -/
theorem PutsRun.takes_turn {target : List Byte} {s : State} (hs : PutsRun target s) :
    ∃ u, u.keepsProtocol = true ∧ step s = runTurn u { s with turns := s.turns.tail } := by
  rw [step_turn hs.running hs.overBudget]
  cases ht : s.turns with
  | cons u us => exact ⟨u, hs.scheduled u (by simp [ht]), takeTurn_cons ht⟩
  | nil => exact ⟨coopMove s, coopMove_keepsProtocol s, by rw [takeTurn_coop ht hs.order, List.tail_nil, eq_with_no_turns ht]⟩

theorem PutsRun.step {target : List Byte} {s t : State} (hs : PutsRun target s) (h : step s = .next t) : PutsRun target t := by
  obtain ⟨-, -, -, -, hturns, -⟩ := stepConsumesInOrder s t h
  refine ⟨hs.toUnhindered.step h, fun u hu => ?_, ?_⟩
  · rw [hturns hs.overBudget] at hu
    exact hs.scheduled u (List.mem_of_mem_tail hu)
  · obtain ⟨u, hu, hstep⟩ := hs.takes_turn
    exact (PutsPhase.turn (s := { s with turns := s.turns.tail }) hs.phase hs.loop hu (hstep.symm.trans h)).phase

/-- Such a run stops only at the end of the program. -/
theorem PutsRun.script_of_stop {target : List Byte} {s : State} (hs : PutsRun target s) (hstop : ∀ t, Machine.step s ≠ .next t) :
    s.script = [] := by
  by_contra hne
  obtain ⟨u, hu, hstep⟩ := hs.takes_turn
  obtain ⟨t, ht⟩ := PutsPhase.turn_completes (s := { s with turns := s.turns.tail }) hs.phase hs.loop hs.consumer hu hne
  exact hstop t (hstep.trans ht)

/-- Settles O32: the phase is kept to the end of the program, and a run that goes on by SCHED_COOP stops there alone. -/
theorem putsDeliversUnderAnySchedule : Obligations.PutsDeliversUnderAnySchedule := by
  intro bs s hscript hl hf
  have hphase : PutsPhase (s.block.out ++ bs) s.script s.block := .between bs hscript hf rfl
  refine ⟨fun us t hus ht hend => (hphase.runBy hl hus ht).delivered hend, fun hp hbudget hh ho hus => ?_⟩
  obtain ⟨k, t, hk, ht, hstop⟩ := runSteps_stops stepsLeft (fun u v (hu : PutsRun (s.block.out ++ bs) u) h =>
    ⟨hu.step h, step_lowers_stepsLeft hu.toTerminating h⟩) s ⟨⟨⟨hp, hl, ho⟩, hh, hbudget⟩, hus, hphase⟩
  have hend := ht.script_of_stop hstop
  exact ⟨k, t, hk, hend, ht.phase.delivered hend⟩

/-! Runs of such turns, infinite (O33) -/

/-- A turn of an infinite run is never pre-empted by the host's abort, after which there is no step (spec 43_host.md R89). -/
theorem InfiniteRun.takes_turn {order : Nat → Turn} {run : Nat → State} (hr : InfiniteRun order run) (n : Nat) :
    runTurn (order n) { run n with turns := [] } = .next (run (n + 1)) := by
  obtain ⟨-, habort | hturn⟩ := stepBy_cases (hr n)
  · obtain ⟨hh, -⟩ := stepBy_cases (hr (n + 1))
    rw [habort] at hh
    cases hh
  · exact hturn

theorem InfiniteRun.phase {target : List Byte} {order : Nat → Turn} {run : Nat → State} (hr : InfiniteRun order run)
    (hu : ∀ n, (order n).keepsProtocol = true) (hl : (run 0).loop = [])
    (h : PutsPhase target (run 0).script (run 0).block) (n : Nat) :
    (run n).loop = [] ∧ PutsPhase target (run n).script (run n).block := by
  induction n with
  | zero => exact ⟨hl, h⟩
  | succ n ih =>
    obtain ⟨hln, hn⟩ := ih
    obtain ⟨-, -, hloop, -⟩ := stepConsumesInOrder _ _ (hr n)
    exact ⟨hloop.trans hln, (PutsPhase.turn (s := { run n with turns := [] }) hn hln (hu n) (hr.takes_turn n)).phase⟩

/-- Work that never grows comes to rest. -/
theorem exists_rest {work : Nat → Nat} (h : ∀ n, work (n + 1) ≤ work n) : ∃ n, ∀ k, n ≤ k → work k = work n := by
  have hleast := Function.argmin_le work
  exact ⟨_, fun k hk => (antitone_nat_of_succ_le h hk).antisymm (hleast k)⟩

/-- Settles O33: where the work left has come to rest no turn advances, but a fair order would give one that does. -/
theorem putsDeliversUnderEveryFairOrder : Obligations.PutsDeliversUnderEveryFairOrder := by
  intro bs order run hr hfair hserved hu _ hscript hl hf
  have hphase := hr.phase hu hl (.between bs hscript hf rfl)
  have hturn : ∀ n, PutsTurn _ (order n) (run n) (run (n + 1)) := fun n => by
    obtain ⟨hln, hn⟩ := hphase n
    obtain ⟨hp, hwork, hadv⟩ := PutsPhase.turn (s := { run n with turns := [] }) hn hln (hu n) (hr.takes_turn n)
    exact ⟨hp, hwork, hadv⟩
  obtain ⟨n, hrest⟩ : ∃ n, ∀ k, n ≤ k → workLeft (run k) = workLeft (run n) := exists_rest fun n => (hturn n).work
  have hstill : ∀ k, n ≤ k → ¬(order k).advances (run k) := fun k hk hadv => by
    have hlt := (hturn k).advance hadv
    rw [hrest k hk, hrest (k + 1) (hk.trans k.le_succ)] at hlt
    exact hlt.false
  have hidle : ∀ k, n ≤ k → ((run k).block.flag = 0x00#8 ↔ (run n).block.flag = 0x00#8) := fun k hk =>
    idle_iff_of_workLeft_eq (hrest k hk)
  obtain ⟨hln, hn⟩ := hphase n
  by_cases hend : (run n).script = []
  · exact ⟨n, hend, hn.delivered hend⟩
  by_cases hflag : (run n).block.flag = 0x00#8
  · obtain ⟨k, hk, hclient⟩ := hserved n (by rwa [upcoming_of_no_loop hln])
    exact absurd (.inl ⟨hclient, (hidle k hk).2 hflag⟩) (hstill k hk)
  · have hpending : ∀ k, n ≤ k → (run k).block.flag ≠ 0x00#8 := fun k hk => mt (hidle k hk).1 hflag
    obtain ⟨k, hk, hdrain⟩ := hfair n hpending
    exact absurd (.inr ⟨hdrain, hpending k hk⟩) (hstill k hk)

end Sys2Proof.Machine
end

section
/-! PROOFS. The display sink and the host (spec 43_host.md): FRAME and CLEAR, the abort of a client over budget, the busy-wait that ends
`Hang`, and the client that loops for ever. -/

namespace Sys2Proof.Machine

open Sys2Proof

/-! FRAME and CLEAR (O34, O35) -/

/-- FRAME is the grid on the frame port (spec 43_host.md R87). -/
theorem exec_frame (s : State) : exec .frame s = .next (s.driveFrame s.block.fb) := rfl

/-- CLEAR is the blank grid in the framebuffer (spec 43_host.md R88). -/
theorem exec_clear (s : State) : exec .clear s = .next (s.setGrid Grid.blank).quiet := rfl

/-- Settles O34: FRAME shows the grid as the operation before it left it. -/
theorem frameReturnsTheGrid : Obligations.FrameReturnsTheGrid := by
  refine ⟨decode_of_encode_eq (i := .frame) rfl rfl, fun s => ⟨_, exec_frame s, rfl, rfl⟩, fun s j hj => ?blanked,
    fun s r c v => ?written⟩
  case blanked =>
    obtain ⟨t, ht, hfb⟩ := exec_blanks hj s
    exact ⟨_, t.block.fb, (execAll_cons ht _).trans (execAll_cons (exec_frame t) []), rfl, fun r c => hfb ▸ gridRead_blank r c⟩
  case written =>
    obtain ⟨hw, ho, ha, hv⟩ := writeInstr_spec (cellAddr r c) v
    obtain ⟨t, ht, hcells, -⟩ := exec_write_cell s hw ho ha
    rw [hv] at hcells
    exact ⟨_, t, _, _, decode_write _ v, ht, exec_frame t, rfl, rfl, hcells⟩

/-- Settles O35: CLEAR sets the grid alone, and the blank grid is the one whose every cell is 0x00. -/
theorem clearBlanksTheFramebuffer : Obligations.ClearBlanksTheFramebuffer := by
  refine ⟨decode_of_encode_eq (i := .clear) rfl rfl, fun s => ⟨_, exec_clear s, gridRead_blank, rfl, fun hblank => ?_⟩⟩
  have hfb : s.block.fb = Grid.blank := grid_ext fun r c => (hblank r c).trans (gridRead_blank r c).symm
  rw [State.quiet_block, State.setGrid, ← hfb]

/-! The abort (O39) -/

/-- A run the host has ended takes no step (spec 43_host.md R89). -/
theorem step_of_hung {s : State} (hh : s.hung = true) : step s = .fault .runHang := by
  simp only [step, runStep, hh, if_true]

/-- The host aborts a client over budget before anything else moves (spec 43_host.md R89; log 11). -/
theorem step_of_overBudget {s : State} (hh : s.hung = false) (hb : s.overBudget = true) : step s = .next s.abort := by
  simp only [step, runStep, hh, hb, Bool.false_eq_true, if_false, if_true]

/-- Settles O39: the step is the abort, and it ends the run. -/
theorem hostAbortsOverBudget : Obligations.HostAbortsOverBudget := by
  intro s n hh hbudget hover
  have hb : s.overBudget = true := (overBudget_iff s).2 ⟨n, hbudget, hover⟩
  exact ⟨s.abort, step_of_overBudget hh hb, s.abort_hung, s.abort_block, s.abort_spin, step_of_hung s.abort_hung⟩

/-! A busy-wait that ends `Hang` (O40) -/

/-- The iterations a client has made of the busy-wait it stands at (spec 10_state.md R25). -/
def iterationsMade (s : State) : Nat :=
  if s.waiting then s.spin else 0

/-- A client at a busy-wait that goes on, with `k` iterations to make until a budget of `n` is used up (spec 43_host.md R89). -/
structure StuckWait (n k : Nat) (s : State) : Prop where
  running : s.hung = false
  budget : s.params.stepBudget = some n
  atPoll : ∃ rest, s.upcoming = .poll :: rest
  goesOn : pollContinues s.params.polarity s.block.flag = true
  within : s.spin ≤ n
  left : iterationsMade s + k = n

/-- A run the host is about to end, its client one iteration over a budget of `n`. -/
structure JustOverBudget (n : Nat) (s : State) : Prop where
  running : s.hung = false
  budget : s.params.stepBudget = some n
  spin : s.spin = n + 1

theorem StuckWait.overBudget {n k : Nat} {s : State} (h : StuckWait n k s) : s.overBudget = false := by
  rw [overBudget_eq_false_iff, h.budget]
  rintro _ ⟨⟩
  exact h.within

/-- Where the wait goes on, an iteration leaves the client at its `poll`, with one iteration more made (spec 42_console.md R83). -/
theorem StuckWait.client {n k : Nat} {s : State} (h : StuckWait n (k + 1) s) :
    ∃ t, clientTurn s = .next t ∧ StuckWait n k t ∧ t.block = s.block := by
  obtain ⟨rest, hu⟩ := h.atPoll
  have hleft : iterationsMade s + 1 + k = n := by rw [← h.left]; omega
  refine ⟨_, clientTurn_poll hu, ⟨h.running, h.budget, ⟨rest, ?upcoming⟩, h.goesOn, ?within, ?left⟩, rfl⟩
  case upcoming => simp [State.upcoming, h.goesOn]
  case within => exact (Nat.le_add_right ..).trans_eq hleft
  case left => exact (congrArg (· + k) (if_pos h.goesOn)).trans hleft

/-- The iteration past the last the budget allows. -/
theorem StuckWait.lastClient {n : Nat} {s : State} (h : StuckWait n 0 s) :
    ∃ t, clientTurn s = .next t ∧ JustOverBudget n t ∧ t.block = s.block := by
  obtain ⟨rest, hu⟩ := h.atPoll
  exact ⟨_, clientTurn_poll hu, ⟨h.running, h.budget, congrArg Nat.succ h.left⟩, rfl⟩

/-- A FRAME or a CLEAR leaves the wait where it stands, and the block but for the framebuffer. -/
theorem StuckWait.port {n k : Nat} {s : State} {w : OpWord} (h : StuckWait n k s) (hd : decode w = .ok .frame ∨ decode w = .ok .clear) :
    ∃ t, present w s = .next t ∧ StuckWait n k t ∧ t.block = { s.block with fb := t.block.fb } := by
  obtain hd | hd := hd <;>
    exact ⟨_, present_of_decode hd nofun, ⟨h.running, h.budget, h.atPoll, h.goesOn, h.within, h.left⟩, rfl⟩

/-- The schedule is no part of the wait. -/
theorem StuckWait.withTurns {n k : Nat} {s : State} (h : StuckWait n k s) (us : List Turn) : StuckWait n k { s with turns := us } :=
  ⟨h.running, h.budget, h.atPoll, h.goesOn, h.within, h.left⟩

/-- A run goes on from the state its first turn leaves. -/
theorem runBy_cons {u : Turn} {s t : State} (h : stepBy u s = .next t) (us : List Turn) : runBy (u :: us) s = runBy us t := by
  rw [runBy, h]

/-- Where the run goes on, the step given to a turn is that turn. -/
theorem stepBy_eq_runTurn {s : State} (hh : s.hung = false) (hb : s.overBudget = false) (u : Turn) :
    stepBy u s = runTurn u { s with turns := [] } :=
  (step_turn (s := { s with turns := [u] }) hh hb).trans (takeTurn_cons rfl)

/-- Client turns, FRAMEs and CLEARs in any order, as many client turns as the budget has left, and one more. -/
theorem StuckWait.runBy {n : Nat} {us : List Turn} (hus : ∀ u ∈ us, u.keepsProtocol = true ∧ u ≠ .port (encode .drain)) {s : State}
    (h : StuckWait n (us.count .client) s) :
    ∃ t, runBy (us ++ [.client]) s = .next t ∧ JustOverBudget n t ∧ t.block = { s.block with fb := t.block.fb } := by
  induction us generalizing s with
  | nil =>
    obtain ⟨t, ht, hover, hblock⟩ := (h.withTurns []).lastClient
    exact ⟨t, runBy_cons ((stepBy_client h.running h.overBudget).trans ht) [], hover, by rw [hblock]⟩
  | cons u us ih =>
    obtain ⟨⟨hu, hdrain⟩, hus⟩ := List.forall_mem_cons.1 hus
    obtain ⟨v, hv, hwait, hblock⟩ : ∃ v, runTurn u { s with turns := [] } = .next v ∧ StuckWait n (us.count .client) v
        ∧ v.block = { s.block with fb := v.block.fb } := by
      cases u with
      | client =>
        rw [List.count_cons_self] at h
        obtain ⟨v, hv, hwait, hblock⟩ := (h.withTurns []).client
        exact ⟨v, hv, hwait, by rw [hblock]⟩
      | port w =>
        rw [List.count_cons_of_ne (by simp)] at h
        obtain ⟨rfl, -⟩ | ⟨-, hd⟩ := decode_of_keepsProtocol hu
        · exact absurd rfl hdrain
        · exact (h.withTurns []).port hd
    obtain ⟨t, ht, hover, hblock'⟩ := ih hus hwait
    refine ⟨t, (runBy_cons ((stepBy_eq_runTurn h.running h.overBudget u).trans hv) _).trans ht, hover, ?_⟩
    rw [hblock', hblock]

/-- A stuck client that is alone with the host: no consumer, no turn scheduled, and SCHED_COOP. -/
structure StuckAlone (n k : Nat) (s : State) : Prop extends StuckWait n k s where
  noConsumer : s.params.consumerPresent = false
  turns : s.turns = []
  order : s.order = .coop

/-- With no consumer SCHED_COOP gives every turn to the client (spec 42_console.md R81, R82). -/
theorem StuckAlone.step_eq {n k : Nat} {s : State} (h : StuckAlone n k s) : step s = clientTurn s :=
  step_coop_client h.running h.overBudget h.turns h.order (.inr h.noConsumer)

/-- SCHED_COOP makes the iterations the budget has left, and one more. -/
theorem StuckAlone.runSteps {n k : Nat} {s : State} (h : StuckAlone n k s) :
    ∃ t, runSteps (k + 1) s = .next t ∧ JustOverBudget n t ∧ t.block = s.block := by
  induction k generalizing s with
  | zero =>
    obtain ⟨t, ht, hover, hblock⟩ := h.lastClient
    exact ⟨t, (runSteps_one s).trans (h.step_eq.trans ht), hover, hblock⟩
  | succ k ih =>
    obtain ⟨u, hu, hwait, hblock⟩ := h.client
    have hstep : step s = .next u := h.step_eq.trans hu
    obtain ⟨hparams, horder, -, -, hturns, -⟩ := stepConsumesInOrder s u hstep
    obtain ⟨t, ht, hover, hblock'⟩ :=
      ih ⟨hwait, hparams ▸ h.noConsumer, by rw [hturns h.overBudget, h.turns, List.tail_nil], horder ▸ h.order⟩
    exact ⟨t, (runSteps_succ hstep _).trans ht, hover, hblock'.trans hblock⟩

/-- Settles O40: the client comes to stand one iteration over its budget, which is what the abort waits for. -/
theorem hangIsReportedWithinTheBudget : Obligations.HangIsReportedWithinTheBudget := by
  intro s rest n hp hbudget hh hu hcont hspin
  have habort : ∀ t, JustOverBudget n t → ∃ u, step t = .next u ∧ u.hung = true ∧ u.block = t.block ∧ u.spin = t.spin
      ∧ step u = .fault .runHang := fun t ht =>
    hostAbortsOverBudget t n ht.running ht.budget (ht.spin ▸ Nat.lt_succ_self n)
  have hmade : iterationsMade s ≤ n := by
    unfold iterationsMade
    split
    · exact hspin
    · exact Nat.zero_le n
  have hwait : StuckWait n (n - iterationsMade s) s := ⟨hh, hbudget, ⟨rest, hu⟩, hcont, hspin, Nat.add_sub_cancel' hmade⟩
  refine ⟨fun us hus hcount => ?anyOrder, fun ht ho => ?cooperative⟩
  case anyOrder =>
    obtain ⟨t, hrun, hover, hblock⟩ := StuckWait.runBy hus (hcount.symm ▸ hwait)
    obtain ⟨u, hstep, hhung, hsame, -, hend⟩ := habort t hover
    exact ⟨t, u, hrun, hover.spin, hblock, hstep, hhung, hsame, hend⟩
  case cooperative =>
    obtain ⟨t, hrun, hover, hblock⟩ := StuckAlone.runSteps ⟨hwait, hp, ht, ho⟩
    obtain ⟨u, hstep, hhung, hsame, hspin', hend⟩ := habort t hover
    have hsteps : n + 2 - iterationsMade s = n - iterationsMade s + 1 + 1 := by omega
    refine ⟨u, ?_, hhung, hsame.trans hblock, hspin'.trans hover.spin, hend⟩
    exact (congrArg (Machine.runSteps · s) hsteps).trans ((runSteps_add hrun 1).trans ((runSteps_one t).trans hstep))

/-! The turn an order gives -/

/-- A turn an order may give: the client's, or the word of a well-formed operation, a DRAIN only where there is a consumer (spec
42_console.md R81). -/
def Turn.permitted (p : Params) (u : Turn) : Prop :=
  u = .client ∨ ∃ i, u = .port (encode i) ∧ i.wf = true ∧ (issuerOf i = .consumer → p.consumerPresent = true)

theorem coopMove_permitted (s : State) : (coopMove s).permitted s.params := by
  unfold coopMove
  split
  · rename_i h
    exact .inr ⟨.drain, rfl, rfl, fun _ => (Bool.and_eq_true_iff.1 h).2⟩
  · exact .inl rfl

theorem moveTurn_permitted (p : Params) (m : Move) : (moveTurn p m).permitted p := by
  cases m with
  | client => exact .inl rfl
  | drain =>
    by_cases h : p.consumerPresent = true
    · exact .inr ⟨.drain, if_pos h, rfl, fun _ => h⟩
    · exact .inl (if_neg h)
  | frame => exact .inr ⟨.frame, rfl, rfl, nofun⟩
  | clear => exact .inr ⟨.clear, rfl, rfl, nofun⟩
  | reset => exact .inr ⟨.reset, rfl, rfl, nofun⟩

theorem order_cases (o : Order) : o = .coop ∨ o = .free := by
  cases o with
  | coop => exact .inl rfl
  | free => exact .inr rfl

/-- With nothing scheduled the turn taken is one the order may give. -/
theorem takeTurn_permitted {s : State} (ht : s.turns = []) :
    ∃ u k, u.permitted s.params ∧ takeTurn s = runTurn u { s with tick := k } := by
  obtain ho | ho := order_cases s.order
  · exact ⟨coopMove s, s.tick, coopMove_permitted s, takeTurn_coop ht ho⟩
  · exact ⟨_, s.tick + 1, moveTurn_permitted s.params _, takeTurn_free ht ho⟩

/-! The end of a run `Done` (O41) -/

/-- An RD.RAM or WR.RAM term with a device's address is refused (log 3). -/
theorem exec_of_not_wf {i : Instr} (hi : ¬i.wf = true) (s : State) : exec i s = .refused .notRam := by
  cases i with
  | rdRam a => exact if_neg fun e => hi (decide_eq_true e)
  | wrRam a v => exact if_neg fun e => hi (decide_eq_true e)
  | _ => exact absurd rfl hi

/-- The block raises nothing: an operation completes or is refused (spec 60_exceptions.md R92). -/
theorem exec_ne_fault (i : Instr) (s : State) (f : Fault) : exec i s ≠ .fault f := by
  by_cases hi : i.wf = true
  · obtain ⟨t, ht, -⟩ := exec_completes hi s
    simp [ht]
  · simp [exec_of_not_wf hi s]

theorem present_ne_fault (w : OpWord) (s : State) (f : Fault) : present w s ≠ .fault f := by
  unfold present
  split
  · nofun
  · split
    · nofun
    · exact exec_ne_fault _ _ f

/-- The client's turn ends the run at a client with nothing left, and nowhere else (spec 43_host.md R90). -/
theorem upcoming_of_clientTurn_fault {s : State} {f : Fault} (h : clientTurn s = .fault f) : s.upcoming = [] := by
  unfold clientTurn at h
  split at h
  · assumption
  · split at h
    · exact absurd h (present_ne_fault _ _ f)
    · cases h
  · split at h
    · exact absurd h (present_ne_fault _ _ f)
    · cases h
  · rw [pollIteration_eq] at h
    cases h

theorem upcoming_eq_nil_iff (s : State) : s.upcoming = [] ↔ s.script = [] ∧ s.loop = [] := by
  unfold State.upcoming
  split
  · rename_i hs
    simp [hs]
  · rename_i hs
    simp [hs]

theorem upcoming_of_runTurn_fault {u : Turn} {s : State} {f : Fault} (h : runTurn u s = .fault f) : s.upcoming = [] := by
  cases u with
  | client => exact upcoming_of_clientTurn_fault h
  | port w => exact absurd h (present_ne_fault w s f)

/-- A step that takes a turn runs it on the same program: scheduled, SCHED_COOP's or the free order's. -/
theorem takeTurn_runs (s : State) : ∃ u ts k, takeTurn s = runTurn u { s with turns := ts, tick := k } := by
  cases ht : s.turns with
  | cons u us => exact ⟨u, us, s.tick, takeTurn_cons ht⟩
  | nil =>
    obtain ⟨u, k, -, hturn⟩ := takeTurn_permitted ht
    exact ⟨u, [], k, by rw [hturn, ← ht]⟩

/-- A step reports `Done` only at a client with no operation left, now or later (spec 43_host.md R90). -/
theorem upcoming_of_step_runDone {s : State} (h : step s = .fault .runDone) : s.upcoming = [] := by
  cases hh : s.hung with
  | true => cases h.symm.trans (step_of_hung hh)
  | false =>
    cases hb : s.overBudget with
    | true => cases h.symm.trans (step_of_overBudget hh hb)
    | false =>
      obtain ⟨u, ts, k, hturn⟩ := takeTurn_runs s
      exact upcoming_of_runTurn_fault (s := { s with turns := ts, tick := k }) (hturn.symm.trans ((step_turn hh hb).symm.trans h))

/-! A client that loops for ever (O41) -/

/-- The names the client has given. -/
def State.known (s : State) : List Name :=
  s.names.map Prod.fst

theorem known_bindName (n : Name) (v : Byte) (ns : List (Name × Byte)) : ns.map Prod.fst ⊆ (bindName n v ns).map Prod.fst := by
  intro m hm
  rw [← nameValue_isSome] at hm ⊢
  rw [nameValue_bindName]
  split
  · rfl
  · exact hm

/-- A result takes no name away (spec 30_encoding.md R62). -/
theorem known_bindResult (name : Option Name) (v : Byte) (ns : List (Name × Byte)) :
    ns.map Prod.fst ⊆ (bindResult name v ns).map Prod.fst := by
  cases name with
  | none => exact List.Subset.refl _
  | some n => exact known_bindName n v ns

/-- A name that has been given stands for a value in any place of the program (log 13). -/
theorem value_named_of_mem {w : Nat} {n : Name} {ns : List (Name × Byte)} (h : n ∈ ns.map Prod.fst) :
    ∃ v : BitVec w, (ScriptArg.named n).value ns = some v := by
  obtain ⟨b, hb⟩ := Option.isSome_iff_exists.1 ((nameValue_isSome n ns).2 h)
  exact ⟨b.setWidth w, congrArg (Option.map _) hb⟩

theorem value_of_read_usesOnly {a : ScriptArg 16} {name : Option Name} {ns : List (Name × Byte)}
    (h : (ScriptItem.read a name).usesOnly (ns.map Prod.fst) = true) : ∃ a', a.value ns = some a' := by
  cases a with
  | lit a => exact ⟨a, rfl⟩
  | named n => exact value_named_of_mem (of_decide_eq_true h)

theorem value_of_write_usesOnly {a : ScriptArg 16} {v : ScriptArg 8} {ns : List (Name × Byte)}
    (h : (ScriptItem.write a v).usesOnly (ns.map Prod.fst) = true) :
    (∃ a', a.value ns = some a') ∧ ∃ v', v.value ns = some v' := by
  cases a with
  | lit a =>
    cases v with
    | lit v => exact ⟨⟨a, rfl⟩, v, rfl⟩
    | named m => exact ⟨⟨a, rfl⟩, value_named_of_mem (of_decide_eq_true h)⟩
  | named n =>
    cases v with
    | lit v => exact ⟨value_named_of_mem (of_decide_eq_true h), v, rfl⟩
    | named m =>
      obtain ⟨hn, hm⟩ := Bool.and_eq_true_iff.1 h
      exact ⟨value_named_of_mem (of_decide_eq_true hn), value_named_of_mem (of_decide_eq_true hm)⟩

/-- An item may use the names of any longer list. -/
theorem usesOnly_mono {ns ms : List Name} (h : ns ⊆ ms) {x : ScriptItem} (hx : x.usesOnly ns = true) : x.usesOnly ms = true := by
  have mem : ∀ n, decide (n ∈ ns) = true → decide (n ∈ ms) = true := fun n hn => decide_eq_true (h (of_decide_eq_true hn))
  cases x with
  | poll => rfl
  | read a name =>
    cases a with
    | lit a => rfl
    | named n => exact mem n hx
  | write a v =>
    cases a with
    | lit a =>
      cases v with
      | lit v => rfl
      | named m => exact mem m hx
    | named n =>
      cases v with
      | lit v => exact mem n hx
      | named m =>
        obtain ⟨hn, hm⟩ := Bool.and_eq_true_iff.1 hx
        exact Bool.and_eq_true_iff.2 ⟨mem n hn, mem m hm⟩

/-- A client with an item to come whose names have been given takes its turn, and forgets no name. -/
theorem clientTurn_completes {s : State} {x : ScriptItem} {rest : List ScriptItem} (hu : s.upcoming = x :: rest)
    (hx : x.usesOnly s.known = true) : ∃ t, clientTurn s = .next t ∧ s.known ⊆ t.known := by
  cases x with
  | read a name =>
    obtain ⟨a', ha⟩ := value_of_read_usesOnly hx
    exact ⟨_, clientTurn_read_next hu ha, known_bindResult name _ s.names⟩
  | write a v =>
    obtain ⟨⟨a', ha⟩, v', hv⟩ := value_of_write_usesOnly hx
    refine ⟨_, clientTurn_write_next hu ha hv, ?_⟩
    simp [State.known]
  | poll => exact ⟨_, clientTurn_poll hu, List.Subset.refl _⟩

/-- The word of a well-formed operation, presented where a DRAIN has its consumer, is carried out and leaves the client's names. -/
theorem present_encode_completes {i : Instr} {s : State} (hi : i.wf = true)
    (hc : issuerOf i = .consumer → s.params.consumerPresent = true) : ∃ t, present (encode i) s = .next t ∧ t.names = s.names := by
  obtain ⟨t, ht, -⟩ := exec_completes hi (noteIssued (issuerOf i) s)
  refine ⟨t, (present_of_decode (decodeOfEncodeIsTheOperation i hi) hc).trans ht, ?_⟩
  rw [exec_agents ht]
  exact noteIssued_names ..

/-- A run with no budget and nothing scheduled, of a client that loops for ever over names it has been given. -/
structure Looping (s : State) : Prop where
  running : s.hung = false
  budget : s.params.stepBudget = none
  turns : s.turns = []
  loop : s.loop ≠ []
  named : ∀ x ∈ s.script ++ s.loop, x.usesOnly s.known = true

/-- What is to come is of the client's program. -/
theorem upcoming_subset (s : State) : s.upcoming ⊆ s.script ++ s.loop := by
  unfold State.upcoming
  split
  · exact List.subset_append_right ..
  · rename_i hs
    exact hs ▸ List.subset_append_left ..

/-- A looping client has an item to come, whose names have been given. -/
theorem Looping.next_item {s : State} (hs : Looping s) : ∃ x rest, s.upcoming = x :: rest ∧ x.usesOnly s.known = true := by
  obtain ⟨x, rest, hu⟩ := List.exists_cons_of_ne_nil fun h => hs.loop ((upcoming_eq_nil_iff s).1 h).2
  exact ⟨x, rest, hu, hs.named x (upcoming_subset s (hu ▸ List.mem_cons_self))⟩

/-- Every turn the order may give has a next state. -/
theorem Looping.turn_completes {s : State} (hs : Looping s) {u : Turn} (hu : u.permitted s.params) (k : Nat) :
    ∃ t, runTurn u { s with tick := k } = .next t ∧ s.known ⊆ t.known := by
  obtain rfl | ⟨i, rfl, hi, hc⟩ := hu
  · obtain ⟨x, rest, hup, hx⟩ := hs.next_item
    exact clientTurn_completes (s := { s with tick := k }) hup hx
  · obtain ⟨t, ht, hnames⟩ := present_encode_completes (s := { s with tick := k }) hi hc
    exact ⟨t, ht, by rw [State.known, State.known, hnames]; exact List.Subset.refl _⟩

/-- Only the abort ends a run `Hang` (spec 43_host.md R89). -/
theorem hung_of_step {s t : State} (hb : s.overBudget = false) (h : step s = .next t) : t.hung = false := by
  obtain ⟨hh, ⟨hb', -⟩ | ⟨-, i, s', -, he, hc, -⟩⟩ := step_cases h
  · cases hb'.symm.trans hb
  · rw [exec_agents he]
    exact hc.hung.trans hh

/-- A step leaves no item to do that was not in the program before it (spec 00_scope.md R11). -/
theorem program_of_step {s t : State} (h : step s = .next t) : t.script ++ t.loop ⊆ s.script ++ s.loop := by
  obtain ⟨-, -, hloop, hscript, -⟩ := stepConsumesInOrder s t h
  rw [hloop]
  refine List.append_subset.2 ⟨?_, List.subset_append_right ..⟩
  obtain hsame | hup | ⟨x, hup⟩ := hscript
  · exact hsame ▸ List.subset_append_left ..
  · exact hup ▸ upcoming_subset s
  · exact fun y hy => upcoming_subset s (hup ▸ List.mem_cons_of_mem x hy)

/-- A looping client's run has a next step, after which it loops on. -/
theorem Looping.step {s : State} (hs : Looping s) : ∃ t, step s = .next t ∧ Looping t := by
  have hb := overBudget_of_no_budget hs.budget
  obtain ⟨u, k, hu, hturn⟩ := takeTurn_permitted hs.turns
  obtain ⟨t, ht, hknown⟩ := hs.turn_completes hu k
  have hstep : Machine.step s = .next t := (step_turn hs.running hb).trans (hturn.trans ht)
  obtain ⟨hparams, -, hloop, -, hturns, -⟩ := stepConsumesInOrder s t hstep
  exact ⟨t, hstep, hung_of_step hb hstep, hparams ▸ hs.budget, by rw [hturns hb, hs.turns, List.tail_nil], hloop ▸ hs.loop,
    fun x hx => usesOnly_mono hknown (hs.named x (program_of_step hstep hx))⟩

/-- Where every state with `P` has a next one with `P`, the run goes on for ever. -/
theorem runSteps_for_ever {P : State → Prop} (hstep : ∀ s, P s → ∃ t, step s = .next t ∧ P t) {s : State} (hs : P s) (k : Nat) :
    ∃ t, runSteps k s = .next t := by
  induction k generalizing s with
  | zero => exact ⟨s, rfl⟩
  | succ k ih =>
    obtain ⟨u, hu, hPu⟩ := hstep s hs
    obtain ⟨t, ht⟩ := ih hPu
    exact ⟨t, (runSteps_succ hu k).trans ht⟩

/-- Settles O41: `Done` is the client's turn with nothing left, and a looping client always has a next step. -/
theorem aLoopingClientRunsForEver : Obligations.ALoopingClientRunsForEver :=
  ⟨fun s h => (upcoming_eq_nil_iff s).1 (upcoming_of_step_runDone h), fun _ hh hbudget ht hl hnamed =>
    runSteps_for_ever (fun _ => Looping.step) ⟨hh, hbudget, ht, hl, hnamed⟩⟩

end Sys2Proof.Machine
end

section
/-! PROOFS. Exceptions (spec 60_exceptions.md): the block raises none. -/

namespace Sys2Proof.Machine

open Sys2Proof

/-- A word decodes to well-formed operations only: no RD.RAM or WR.RAM at a device's address (spec 30_encoding.md R55, R56). -/
theorem wf_of_decode {w : OpWord} {i : Instr} (h : decode w = .ok i) : i.wf = true := by
  obtain ⟨hi, -⟩ := decodedOperationCarriesTheFields w i h
  exact hi

/-- Settles O47: what a word decodes to is well-formed, and every well-formed operation completes. -/
theorem everyLegalWordCompletes : Obligations.EveryLegalWordCompletes := by
  intro w i s h
  obtain ⟨t, ht, -⟩ := exec_completes (wf_of_decode h) s
  exact ⟨t, ht⟩

end Sys2Proof.Machine
end

section
/-! PROOFS. Reset and the hazards (spec 70_reset_and_hazards.md): the busy-wait no consumer ends, the bytes the hazards lose, and what a
RESET and a launch leave of the block and of the agents. -/

namespace Sys2Proof.Machine

open Sys2Proof

/-! The busy-wait that no consumer ends (O29) -/

/-- The client stands at a busy-wait that goes on, in a run that the host does not end: it has no budget (spec 70_reset_and_hazards.md
R110). -/
structure EndlessWait (s₀ : State) : Prop where
  running : s₀.hung = false
  budget : s₀.params.stepBudget = none
  atPoll : ∃ rest, s₀.upcoming = .poll :: rest
  goesOn : pollContinues s₀.params.polarity s₀.block.flag = true

/-- The state `s` is `s₀` after `n` more iterations of the busy-wait the client stands at (spec 10_state.md R25), with any FRAMEs and
CLEARs between them. -/
structure WaitedFrom (s₀ : State) (n : Nat) (s : State) : Prop where
  running : s.hung = s₀.hung
  params : s.params = s₀.params
  upcoming : s.upcoming = s₀.upcoming
  block : s.block = { s₀.block with fb := s.block.fb }
  inside : 0 < n → s.waiting = true
  made : iterationsMade s = iterationsMade s₀ + n

theorem WaitedFrom.refl (s₀ : State) : WaitedFrom s₀ 0 s₀ :=
  ⟨rfl, rfl, rfl, rfl, fun h => absurd h (Nat.lt_irrefl 0), rfl⟩

/-- After an iteration `spin` is the count of the iterations (spec 10_state.md R25). -/
theorem WaitedFrom.spin {s₀ s : State} {n : Nat} (h : WaitedFrom s₀ n s) (hn : 0 < n) : s.spin = iterationsMade s₀ + n := by
  rw [← h.made, iterationsMade, if_pos (h.inside hn)]

/-- The schedule is no part of the wait. -/
theorem WaitedFrom.withTurns {s₀ s : State} {n : Nat} (h : WaitedFrom s₀ n s) (us : List Turn) :
    WaitedFrom s₀ n { s with turns := us } :=
  ⟨h.running, h.params, h.upcoming, h.block, h.inside, h.made⟩

theorem WaitedFrom.overBudget {s₀ s : State} {n : Nat} (hw : EndlessWait s₀) (h : WaitedFrom s₀ n s) : s.overBudget = false :=
  overBudget_of_no_budget (h.params ▸ hw.budget)

/-- The client's turn is one more read of the same flag, which leaves it at its `poll` (spec 42_console.md R83, R85). -/
theorem WaitedFrom.client {s₀ s : State} {n : Nat} (hw : EndlessWait s₀) (h : WaitedFrom s₀ n s) :
    ∃ t, clientTurn s = .next t ∧ WaitedFrom s₀ (n + 1) t ∧ t.block = s.block := by
  obtain ⟨rest, hu⟩ := hw.atPoll
  have hcont : pollContinues s.params.polarity s.block.flag = true := by
    rw [h.params, h.block]
    exact hw.goesOn
  refine ⟨_, clientTurn_poll (h.upcoming.trans hu), ⟨h.running, h.params, ?upcoming, h.block, fun _ => hcont, ?made⟩, rfl⟩
  case upcoming =>
    rw [hu]
    simp [State.upcoming, hcont]
  case made => exact (if_pos hcont).trans (congrArg (· + 1) h.made)

/-- A FRAME or a CLEAR leaves the wait where it stands, and the block but for the framebuffer. -/
theorem WaitedFrom.port {s₀ s : State} {n : Nat} {w : OpWord} (h : WaitedFrom s₀ n s)
    (hd : decode w = .ok .frame ∨ decode w = .ok .clear) : ∃ t, present w s = .next t ∧ WaitedFrom s₀ n t := by
  obtain hd | hd := hd
  · exact ⟨_, present_of_decode hd nofun, h.running, h.params, h.upcoming, h.block, h.inside, h.made⟩
  · refine ⟨_, present_of_decode hd nofun, h.running, h.params, h.upcoming, ?_, h.inside, h.made⟩
    exact congrArg (fun b : Block => { b with fb := Grid.blank }) h.block

/-- A turn of the client, a FRAME or a CLEAR adds one iteration if it is the client's, and none otherwise. -/
theorem WaitedFrom.stepBy {s₀ s : State} {n : Nat} {u : Turn} (hw : EndlessWait s₀) (h : WaitedFrom s₀ n s)
    (hu : u.keepsProtocol = true ∧ u ≠ .port (encode .drain)) :
    ∃ t, Machine.stepBy u s = .next t ∧ WaitedFrom s₀ (n + [u].count .client) t := by
  rw [stepBy_eq_runTurn (h.running.trans hw.running) (h.overBudget hw)]
  cases u with
  | client =>
    obtain ⟨t, ht, hwait, -⟩ := (h.withTurns []).client hw
    exact ⟨t, ht, hwait⟩
  | port w =>
    obtain ⟨hkeeps, hdrain⟩ := hu
    obtain ⟨rfl, -⟩ | ⟨-, hd⟩ := decode_of_keepsProtocol hkeeps
    · exact absurd rfl hdrain
    · exact (h.withTurns []).port hd

/-- Every finite order of such turns runs to its end, with one iteration a client turn. -/
theorem WaitedFrom.runBy {s₀ s : State} {n : Nat} {us : List Turn} (hw : EndlessWait s₀) (h : WaitedFrom s₀ n s)
    (hus : ∀ u ∈ us, u.keepsProtocol = true ∧ u ≠ .port (encode .drain)) :
    ∃ t, Machine.runBy us s = .next t ∧ WaitedFrom s₀ (n + us.count .client) t := by
  induction us generalizing s n with
  | nil => exact ⟨s, rfl, h⟩
  | cons u us ih =>
    obtain ⟨hu, hus⟩ := List.forall_mem_cons.1 hus
    obtain ⟨v, hv, hwait⟩ := h.stepBy hw hu
    obtain ⟨t, ht, hend⟩ := ih hwait hus
    rw [Nat.add_assoc, ← List.count_append, List.singleton_append] at hend
    exact ⟨t, (runBy_cons hv us).trans ht, hend⟩

/-- The states of the run that an infinite order gives from `s`; a state from which there is no next one stands for ever. -/
def runUnder (order : Nat → Turn) (s : State) : Nat → State
  | 0 => s
  | n + 1 =>
    match stepBy (order n) (runUnder order s n) with
    | .next t => t
    | _ => runUnder order s n

theorem runUnder_succ {order : Nat → Turn} {s t : State} {n : Nat} (h : stepBy (order n) (runUnder order s n) = .next t) :
    runUnder order s (n + 1) = t := by
  rw [runUnder, h]

/-- Where the order's turn takes every state with `P` to one with `P`, the order has an infinite run, and `P` holds along it. -/
theorem runUnder_infinite {P : State → Prop} {order : Nat → Turn} {s : State}
    (hstep : ∀ n u, P u → ∃ t, stepBy (order n) u = .next t ∧ P t) (hs : P s) :
    InfiniteRun order (runUnder order s) ∧ ∀ n, P (runUnder order s n) := by
  have hP : ∀ n, P (runUnder order s n) := by
    intro n
    induction n with
    | zero => exact hs
    | succ n ih =>
      obtain ⟨t, ht, hPt⟩ := hstep n _ ih
      rw [runUnder_succ ht]
      exact hPt
  refine ⟨fun n => ?_, hP⟩
  obtain ⟨t, ht, -⟩ := hstep n _ (hP n)
  rw [runUnder_succ ht, ht]

/-- With no consumer and no turn scheduled SCHED_COOP makes one iteration a step (spec 42_console.md R81, R82). -/
theorem EndlessWait.runSteps {s₀ : State} (hw : EndlessWait s₀) (hp : s₀.params.consumerPresent = false) (ht : s₀.turns = [])
    (ho : s₀.order = .coop) (k : Nat) :
    ∃ t, Machine.runSteps k s₀ = .next t ∧ WaitedFrom s₀ k t ∧ t.block = s₀.block ∧ t.turns = [] ∧ t.order = .coop := by
  induction k with
  | zero => exact ⟨s₀, rfl, .refl s₀, rfl, ht, ho⟩
  | succ k ih =>
    obtain ⟨u, hrun, hwait, hblock, hturns, horder⟩ := ih
    have hb := hwait.overBudget hw
    obtain ⟨t, hclient, hwait', hblock'⟩ := hwait.client hw
    have hstep : step u = .next t :=
      (step_coop_client (hwait.running.trans hw.running) hb hturns horder (.inr (hwait.params ▸ hp))).trans hclient
    obtain ⟨-, horder', -, -, hturns', -⟩ := stepConsumesInOrder u t hstep
    exact ⟨t, (runSteps_add hrun 1).trans ((runSteps_one u).trans hstep), hwait', hblock'.trans hblock,
      by rw [hturns' hb, hturns, List.tail_nil], horder'.trans horder⟩

/-- Settles O29: client turns at a `poll`, FRAMEs and CLEARs leave FLAG, so every iteration reads what the first one read. -/
theorem busyWaitWithoutConsumerNeverEnds : Obligations.BusyWaitWithoutConsumerNeverEnds := by
  intro s rest hp hbudget hh hu hcont
  have hw : EndlessWait s := ⟨hh, hbudget, ⟨rest, hu⟩, hcont⟩
  refine ⟨fun us hus => ?finiteOrder, fun order hus => ?infiniteOrder, fun ht ho k => ?cooperative⟩
  case finiteOrder =>
    obtain ⟨t, hrun, hwait⟩ := (WaitedFrom.refl s).runBy hw hus
    rw [Nat.zero_add] at hwait
    exact ⟨t, hrun, hwait.block, hwait.upcoming, fun hmem => hwait.spin (List.count_pos_iff.2 hmem)⟩
  case infiniteOrder =>
    obtain ⟨hrun, hwait⟩ := runUnder_infinite (P := fun u => ∃ n, WaitedFrom s n u) (order := order)
      (fun n u ⟨_, hwait⟩ => (hwait.stepBy hw (hus n)).imp fun _ ⟨ht, hnext⟩ => ⟨ht, _, hnext⟩) ⟨0, .refl s⟩
    exact ⟨_, rfl, hrun, fun n => (hwait n).elim fun _ hn => ⟨hn.block, hn.upcoming⟩⟩
  case cooperative =>
    obtain ⟨t, hrun, hwait, hblock, -⟩ := hw.runSteps hp ht ho (k + 1)
    exact ⟨t, hrun, hblock, hwait.upcoming, hwait.spin (Nat.succ_pos k)⟩

/-! The bytes the hazards lose (O43, O44, O45) -/

/-- DRAINs of an Idle console leave the block (spec 42_console.md R79). -/
theorem execAll_drains_idle {s : State} (hf : s.block.flag = 0x00#8) (k : Nat) :
    ∃ t, execAll (List.replicate k .drain) s = .next t ∧ t.block = s.block := by
  refine execAll_keeps (P := fun t => t.block = s.block) (fun i hi => ?_) rfl
  obtain rfl := List.eq_of_mem_replicate hi
  refine ⟨rfl, fun u v he hu => ?_⟩
  rw [exec_block he, hu, blockAfter_drain_idle hf]

/-- DRAINs of a Pending console: the first emits DATA and leaves the console Idle for the rest (spec 42_console.md R79). -/
theorem execAll_drains_pending {s : State} (hf : s.block.flag ≠ 0x00#8) (k : Nat) :
    ∃ t, execAll (List.replicate (k + 1) .drain) s = .next t
      ∧ t.block = { s.block with flag := 0x00#8, out := s.block.out ++ [s.block.data] } := by
  obtain ⟨u, hu, hb⟩ := exec_completes (i := .drain) rfl s
  rw [blockAfter_drain_pending hf] at hb
  obtain ⟨t, ht, hkept⟩ := execAll_drains_idle (s := u) (by rw [hb]) k
  exact ⟨t, (execAll_cons hu _).trans ht, hkept.trans hb⟩

/-- Settles O43: the second write of DATA leaves FLAG raised, and the first DRAIN finds the newer byte there. -/
theorem overwriteWhilePendingLosesTheByte : Obligations.OverwriteWhilePendingLosesTheByte := by
  intro s b b2 v hv
  obtain ⟨t, ht, hb⟩ : ∃ t, execAll [.wrCdat b, .wrCrdy v, .wrCdat b2] s = .next t
      ∧ t.block = { s.block with data := b2, flag := v } := ⟨_, rfl, rfl⟩
  refine ⟨t, ht, by rw [hb], fun k => ?_⟩
  obtain ⟨u, hu, hemitted⟩ := execAll_drains_pending (s := t) (by rwa [hb]) k
  exact ⟨u, hu, by rw [hemitted, hb]⟩

/-- Settles O44: the DRAIN takes the old DATA and leaves the console Idle, so the new byte meets no raised FLAG. -/
theorem flagBeforeDataSendsTheOldByte : Obligations.FlagBeforeDataSendsTheOldByte := by
  intro s b v hv k
  obtain ⟨u, hu, hb⟩ := exec_completes (i := .drain) rfl (s.setFlag v).quiet
  rw [blockAfter_drain_pending hv] at hb
  have hrun : execAll [.wrCrdy v, .drain, .wrCdat b] s = .next (u.setData b).quiet := (execAll_cons rfl _).trans (execAll_cons hu _)
  obtain ⟨t, ht, hkept⟩ := execAll_drains_idle (s := (u.setData b).quiet) (congrArg Block.flag hb) k
  refine ⟨t, (execAll_append hrun _).trans ht, ?_, ?_⟩ <;> rw [hkept]
  · exact congrArg Block.out hb
  · exact congrArg Block.flag hb

/-- Settles O45: the cleared FLAG makes the console Idle, and a DRAIN of an Idle console emits nothing. -/
theorem clientClearDropsTheByte : Obligations.ClientClearDropsTheByte := by
  intro s _ k
  obtain ⟨t, ht, hkept⟩ := execAll_drains_idle (s := (s.setFlag 0x00#8).quiet) rfl k
  refine ⟨t, (execAll_cons rfl _).trans ht, ?_, ?_⟩ <;> rw [hkept] <;> rfl

/-! RESET and launch (O36, O38) -/

/-- RESET is the launch block, with the host's counter at 0 (spec 70_reset_and_hazards.md R104). -/
theorem exec_reset (s : State) : exec .reset s = .next ({ s with block := Block.launch, spin := 0 } : State).quiet := rfl

/-- Settles O36: RESET leaves the launch block, which is zero through every view. -/
theorem resetReturnsToLaunch : Obligations.ResetReturnsToLaunch :=
  ⟨decode_of_encode_eq (i := .reset) rfl rfl,
    fun s => ⟨_, exec_reset s, peek_launch, fun _ => rfl, gridRead_blank, rfl, rfl, rfl, rfl⟩,
    ⟨_, exec_reset State.reset, rfl, rfl⟩⟩

/-- Settles O38: no operation touches the agents, and a launched run is the reset state with its load. -/
theorem resetAndLaunchTreatTheAgents : Obligations.ResetAndLaunchTreatTheAgents :=
  ⟨fun _ _ => exec_agents, fun l => ⟨_, launch_hardwareMap l, rfl, rfl, rfl, rfl, rfl, rfl, rfl, rfl, rfl, rfl⟩⟩

end Sys2Proof.Machine
end
